-- ==== Sys2Proof/Word.lean ====
section
/-! DEFINITION. The widths the spec uses (00_scope.md R7, R9): nibble, byte, 12-bit immediate, word.
All values are unsigned; the machine has no signed quantity (R9). -/

namespace Sys2Proof

/-- A 4-bit instruction field, one hexadecimal digit (R9). -/
abbrev Nibble := BitVec 4

/-- 8 bits: a memory cell, a general register, a timer (R7). -/
abbrev Byte := BitVec 8

/-- The 12-bit address immediate `nnn` (R61). -/
abbrev Imm12 := BitVec 12

/-- 16 bits: an instruction word, `I`, `PC`, a stack entry (R7). -/
abbrev Word := BitVec 16

end Sys2Proof
end

