-- ==== Sys2Proof/Syntax.lean ====
section
/-! DEFINITION. The instruction's fields (30_encoding.md R61) and the 34 instructions of the dispatch
table (R67), one constructor a row. The operands have exactly the fields' widths, so a register
index outside 0..15 cannot be written (10_state.md R10). -/

namespace Sys2Proof

/-- The four nibbles the decoder splits a word into, most significant first (R61, R64). -/
structure Fields where
  /-- header, `w[15:12]` -/
  h : Nibble
  /-- `w[11:8]` -/
  x : Nibble
  /-- `w[7:4]` -/
  y : Nibble
  /-- `w[3:0]` -/
  n : Nibble
deriving DecidableEq, Repr

/-- The instructions, in the order of the dispatch table (R67). -/
inductive Instr where
  /-- `0**0`, R151 -/
  | cls
  /-- `0**E`, R80 -/
  | ret
  /-- `1nnn`, R81 -/
  | jp (nnn : Imm12)
  /-- `2nnn`, R82 -/
  | call (nnn : Imm12)
  /-- `3xkk`, R83 -/
  | seImm (x : Nibble) (kk : Byte)
  /-- `4xkk`, R84 -/
  | sneImm (x : Nibble) (kk : Byte)
  /-- `5xy*`, R85 -/
  | seReg (x y : Nibble)
  /-- `6xkk`, R100 -/
  | ldImm (x : Nibble) (kk : Byte)
  /-- `7xkk`, R101 -/
  | addImm (x : Nibble) (kk : Byte)
  /-- `8xy0`, R111 -/
  | ldReg (x y : Nibble)
  /-- `8xy1`, R112 -/
  | orReg (x y : Nibble)
  /-- `8xy2`, R113 -/
  | andReg (x y : Nibble)
  /-- `8xy3`, R114 -/
  | xorReg (x y : Nibble)
  /-- `8xy4`, R115 -/
  | addReg (x y : Nibble)
  /-- `8xy5`, R116 -/
  | sub (x y : Nibble)
  /-- `8xy6`, R117; `y` is encoded and not used -/
  | shr (x y : Nibble)
  /-- `8xy7`, R118 -/
  | subn (x y : Nibble)
  /-- `8xyE`, R119; `y` is encoded and not used -/
  | shl (x y : Nibble)
  /-- `9xy*`, R86 -/
  | sneReg (x y : Nibble)
  /-- `Annn`, R130 -/
  | ldI (nnn : Imm12)
  /-- `Bnnn`, R87 -/
  | jpV0 (nnn : Imm12)
  /-- `Cxkk`, R102 -/
  | rnd (x : Nibble) (kk : Byte)
  /-- `Dxyn`, R152 -/
  | drw (x y n : Nibble)
  /-- `Ex9E`, R161 -/
  | skp (x : Nibble)
  /-- `ExA1`, R162 -/
  | sknp (x : Nibble)
  /-- `Fx07`, R163 -/
  | ldVxDt (x : Nibble)
  /-- `Fx0A`, R164 -/
  | ldVxK (x : Nibble)
  /-- `Fx15`, R165 -/
  | ldDtVx (x : Nibble)
  /-- `Fx18`, R166 -/
  | ldStVx (x : Nibble)
  /-- `Fx1E`, R131 -/
  | addI (x : Nibble)
  /-- `Fx29`, R132 -/
  | ldF (x : Nibble)
  /-- `Fx33`, R136 -/
  | ldB (x : Nibble)
  /-- `Fx55`, R137 -/
  | storeRegs (x : Nibble)
  /-- `Fx65`, R138 -/
  | loadRegs (x : Nibble)
deriving DecidableEq, Repr

end Sys2Proof
end

