-- ==== Sys2Proof/WellFormed.lean ====
section
/-! DEFINITION. Which fields are an instruction. Any word splits into fields (30_encoding.md R64);
validity is the dispatch table's coverage (R65, R67, R68). The checks are the four headers that
have a second-level key; every other header takes any operand. A term of `Instr` needs no check of
its own: its operands have the fields' widths, and `Fields.ofInstr_wellFormed` in Laws/Decode.lean
shows that its fields pass these checks. -/

namespace Sys2Proof

/-- The second-level key of headers 0xE and 0xF (R65): `kk = y : n`. -/
def Fields.selector (f : Fields) : Byte := f.y ++ f.n

/-- Header 0x0: the sub-selector `n` is 0x0 or 0xE (R68). -/
def Fields.checkHeader0 (f : Fields) : Bool := f.n == 0x0 || f.n == 0xE

/-- Header 0x8: `n` is none of 0x8 to 0xD and 0xF (R68). -/
def Fields.checkHeader8 (f : Fields) : Bool :=
  !([0x8, 0x9, 0xA, 0xB, 0xC, 0xD, 0xF].contains f.n)

/-- Header 0xE: `kk` is 0x9E or 0xA1 (R68). -/
def Fields.checkHeaderE (f : Fields) : Bool := [0x9E, 0xA1].contains f.selector

/-- Header 0xF: `kk` is one of the nine sub-selectors (R68). -/
def Fields.checkHeaderF (f : Fields) : Bool :=
  [0x07, 0x0A, 0x15, 0x18, 0x1E, 0x29, 0x33, 0x55, 0x65].contains f.selector

/-- The header and sub-selector are in the dispatch table (R67, R68). -/
def Fields.WellFormed (f : Fields) : Bool :=
  match f.h.toNat with
  | 0x0 => f.checkHeader0
  | 0x8 => f.checkHeader8
  | 0xE => f.checkHeaderE
  | 0xF => f.checkHeaderF
  | _ => true

end Sys2Proof
end

