-- ==== Sys2Proof/Decode.lean ====
section
/-! DEFINITION. The decoder and the encoder (30_encoding.md): the split of a word into fields (R61,
R64), the two-level dispatch (R65, R66), the dispatch table as data (R67), and the encoding of an
instruction. Instruction words lie in Memory high byte first (20_memory.md R49). -/

namespace Sys2Proof

/-- Why the decoder gives no instruction. -/
inductive Reject where
  /-- The header and sub-selector are not in the dispatch table (R68): `InvalidInstruction(w)`. -/
  | invalidInstruction (w : Word)
  /-- Fewer than the two bytes of an instruction (R60) were given to `decodeBytes`. -/
  | truncated
deriving DecidableEq, Repr

/-- `hi : lo`, the byte at the lower address being the more significant (20_memory.md R49). -/
def joinBytes (hi lo : Byte) : Word := hi ++ lo

/-- `w[15:8]`, stored at the lower address (20_memory.md R49). -/
def hiByte (w : Word) : Byte := w.extractLsb' 8 8

/-- `w[7:0]`, stored at the higher address (20_memory.md R49). -/
def loByte (w : Word) : Byte := w.extractLsb' 0 8

/-- The decoder proper: any word splits into its four nibbles (R61, R64). -/
def Fields.ofWord (w : Word) : Fields where
  h := w.extractLsb' 12 4
  x := w.extractLsb' 8 4
  y := w.extractLsb' 4 4
  n := w.extractLsb' 0 4

/-- The word of the four nibbles, most significant first (R61). -/
def Fields.toWord (f : Fields) : Word := (f.h ++ f.x) ++ (f.y ++ f.n)

/-- `kk = y : n` (R61). -/
def Fields.kk (f : Fields) : Byte := f.y ++ f.n

/-- `nnn = x : y : n` (R61). -/
def Fields.nnn (f : Fields) : Imm12 := f.x ++ (f.y ++ f.n)

/-- Header 0x0: the second-level key is `n`; `x` and `y` are not looked at (R65, D26). -/
def dispatch0 (f : Fields) : Option Instr :=
  match f.n.toNat with
  | 0x0 => some .cls
  | 0xE => some .ret
  | _ => none

/-- Header 0x8: the second-level key is `n` (R65). -/
def dispatch8 (f : Fields) : Option Instr :=
  match f.n.toNat with
  | 0x0 => some (.ldReg f.x f.y)
  | 0x1 => some (.orReg f.x f.y)
  | 0x2 => some (.andReg f.x f.y)
  | 0x3 => some (.xorReg f.x f.y)
  | 0x4 => some (.addReg f.x f.y)
  | 0x5 => some (.sub f.x f.y)
  | 0x6 => some (.shr f.x f.y)
  | 0x7 => some (.subn f.x f.y)
  | 0xE => some (.shl f.x f.y)
  | _ => none

/-- Header 0xE: the second-level key is `kk` (R65). -/
def dispatchE (f : Fields) : Option Instr :=
  match f.kk.toNat with
  | 0x9E => some (.skp f.x)
  | 0xA1 => some (.sknp f.x)
  | _ => none

/-- Header 0xF: the second-level key is `kk` (R65). -/
def dispatchF (f : Fields) : Option Instr :=
  match f.kk.toNat with
  | 0x07 => some (.ldVxDt f.x)
  | 0x0A => some (.ldVxK f.x)
  | 0x15 => some (.ldDtVx f.x)
  | 0x18 => some (.ldStVx f.x)
  | 0x1E => some (.addI f.x)
  | 0x29 => some (.ldF f.x)
  | 0x33 => some (.ldB f.x)
  | 0x55 => some (.storeRegs f.x)
  | 0x65 => some (.loadRegs f.x)
  | _ => none

/-- The two-level dispatch (R65, R67): first on the header, then, for headers 0x0, 0x8, 0xE and 0xF,
on the second-level key. For headers 0x5 and 0x9 the field `n` is not looked at (D26). -/
def dispatch (f : Fields) : Option Instr :=
  match f.h.toNat with
  | 0x0 => dispatch0 f
  | 0x1 => some (.jp f.nnn)
  | 0x2 => some (.call f.nnn)
  | 0x3 => some (.seImm f.x f.kk)
  | 0x4 => some (.sneImm f.x f.kk)
  | 0x5 => some (.seReg f.x f.y)
  | 0x6 => some (.ldImm f.x f.kk)
  | 0x7 => some (.addImm f.x f.kk)
  | 0x8 => dispatch8 f
  | 0x9 => some (.sneReg f.x f.y)
  | 0xA => some (.ldI f.nnn)
  | 0xB => some (.jpV0 f.nnn)
  | 0xC => some (.rnd f.x f.kk)
  | 0xD => some (.drw f.x f.y f.n)
  | 0xE => dispatchE f
  | 0xF => dispatchF f
  | _ => none

/-- The instruction of a word, or `InvalidInstruction(w)` (R66, R68). -/
def decode (w : Word) : Except Reject Instr :=
  match dispatch (Fields.ofWord w) with
  | some i => .ok i
  | none => .error (.invalidInstruction w)

/-- Decoding a byte stream: the instruction and the bytes after it. Total on any bytes. -/
def decodeBytes : List Byte → Except Reject (Instr × List Byte)
  | hi :: lo :: rest =>
    match decode (joinBytes hi lo) with
    | .ok i => .ok (i, rest)
    | .error e => .error e
  | _ => .error .truncated

/-- The host's table question: the instruction the decoder reads from a word numbered as
spec/opcode_table.json numbers it (one 16-bit word, bits from `nbits` on zero), laid out in Memory
order, high byte first. -/
def decodeTableWord (nbits w : Nat) : Option Instr :=
  let word : Word := BitVec.ofNat 16 (w % 2 ^ nbits)
  match decodeBytes [hiByte word, loByte word] with
  | .ok (i, _) => some i
  | .error _ => none

/-! ### The encoder -/

/-- `h nnn` (format ADDR, R62). -/
def Fields.addr (h : Nibble) (nnn : Imm12) : Fields where
  h := h
  x := nnn.extractLsb' 8 4
  y := nnn.extractLsb' 4 4
  n := nnn.extractLsb' 0 4

/-- `h x kk` (formats XKK and XSEL, R62). -/
def Fields.xkk (h x : Nibble) (kk : Byte) : Fields where
  h := h
  x := x
  y := kk.extractLsb' 4 4
  n := kk.extractLsb' 0 4

/-- The fields of an instruction (R62, R67). An ignored nibble takes its canonical value (R65): `00E0`,
`00EE`, `5xy0`, `9xy0`. SHR and SHL keep their `y`, which is encoded and not used. -/
def Fields.ofInstr : Instr → Fields
  | .cls => ⟨0x0, 0x0, 0xE, 0x0⟩
  | .ret => ⟨0x0, 0x0, 0xE, 0xE⟩
  | .jp nnn => .addr 0x1 nnn
  | .call nnn => .addr 0x2 nnn
  | .seImm x kk => .xkk 0x3 x kk
  | .sneImm x kk => .xkk 0x4 x kk
  | .seReg x y => ⟨0x5, x, y, 0x0⟩
  | .ldImm x kk => .xkk 0x6 x kk
  | .addImm x kk => .xkk 0x7 x kk
  | .ldReg x y => ⟨0x8, x, y, 0x0⟩
  | .orReg x y => ⟨0x8, x, y, 0x1⟩
  | .andReg x y => ⟨0x8, x, y, 0x2⟩
  | .xorReg x y => ⟨0x8, x, y, 0x3⟩
  | .addReg x y => ⟨0x8, x, y, 0x4⟩
  | .sub x y => ⟨0x8, x, y, 0x5⟩
  | .shr x y => ⟨0x8, x, y, 0x6⟩
  | .subn x y => ⟨0x8, x, y, 0x7⟩
  | .shl x y => ⟨0x8, x, y, 0xE⟩
  | .sneReg x y => ⟨0x9, x, y, 0x0⟩
  | .ldI nnn => .addr 0xA nnn
  | .jpV0 nnn => .addr 0xB nnn
  | .rnd x kk => .xkk 0xC x kk
  | .drw x y n => ⟨0xD, x, y, n⟩
  | .skp x => .xkk 0xE x 0x9E
  | .sknp x => .xkk 0xE x 0xA1
  | .ldVxDt x => .xkk 0xF x 0x07
  | .ldVxK x => .xkk 0xF x 0x0A
  | .ldDtVx x => .xkk 0xF x 0x15
  | .ldStVx x => .xkk 0xF x 0x18
  | .addI x => .xkk 0xF x 0x1E
  | .ldF x => .xkk 0xF x 0x29
  | .ldB x => .xkk 0xF x 0x33
  | .storeRegs x => .xkk 0xF x 0x55
  | .loadRegs x => .xkk 0xF x 0x65

/-- The (canonical) word of an instruction. -/
def encode (i : Instr) : Word := (Fields.ofInstr i).toWord

/-- The two bytes of an instruction, in Memory order (20_memory.md R49). -/
def encodeBytes (i : Instr) : List Byte := [hiByte (encode i), loByte (encode i)]

/-! ### The dispatch table as data (R67) -/

/-- The nibbles of a word that no dispatch key looks at and no instruction uses, with their canonical
value (R65): the word with the same meaning whose ignored nibbles are canonical. -/
def canonicalWord (w : Word) : Word :=
  match (Fields.ofWord w).h.toNat with
  | 0x0 => (w &&& 0xF00F) ||| 0x00E0
  | 0x5 => w &&& 0xFFF0
  | 0x9 => w &&& 0xFFF0
  | _ => w

/-- The row of the dispatch table of an instruction: its mask and its match (R67). A word `w` is the
instruction of a row when `w &&& mask = match`. -/
def Instr.row : Instr → Word × Word
  | .cls => (0xF00F, 0x0000)
  | .ret => (0xF00F, 0x000E)
  | .jp _ => (0xF000, 0x1000)
  | .call _ => (0xF000, 0x2000)
  | .seImm _ _ => (0xF000, 0x3000)
  | .sneImm _ _ => (0xF000, 0x4000)
  | .seReg _ _ => (0xF000, 0x5000)
  | .ldImm _ _ => (0xF000, 0x6000)
  | .addImm _ _ => (0xF000, 0x7000)
  | .ldReg _ _ => (0xF00F, 0x8000)
  | .orReg _ _ => (0xF00F, 0x8001)
  | .andReg _ _ => (0xF00F, 0x8002)
  | .xorReg _ _ => (0xF00F, 0x8003)
  | .addReg _ _ => (0xF00F, 0x8004)
  | .sub _ _ => (0xF00F, 0x8005)
  | .shr _ _ => (0xF00F, 0x8006)
  | .subn _ _ => (0xF00F, 0x8007)
  | .shl _ _ => (0xF00F, 0x800E)
  | .sneReg _ _ => (0xF000, 0x9000)
  | .ldI _ => (0xF000, 0xA000)
  | .jpV0 _ => (0xF000, 0xB000)
  | .rnd _ _ => (0xF000, 0xC000)
  | .drw _ _ _ => (0xF000, 0xD000)
  | .skp _ => (0xF0FF, 0xE09E)
  | .sknp _ => (0xF0FF, 0xE0A1)
  | .ldVxDt _ => (0xF0FF, 0xF007)
  | .ldVxK _ => (0xF0FF, 0xF00A)
  | .ldDtVx _ => (0xF0FF, 0xF015)
  | .ldStVx _ => (0xF0FF, 0xF018)
  | .addI _ => (0xF0FF, 0xF01E)
  | .ldF _ => (0xF0FF, 0xF029)
  | .ldB _ => (0xF0FF, 0xF033)
  | .storeRegs _ => (0xF0FF, 0xF055)
  | .loadRegs _ => (0xF0FF, 0xF065)

/-- The masks and matches of all 34 rows, in the table's order (R67). -/
def opcodeRows : List (Word × Word) :=
  [(0xF00F, 0x0000), (0xF00F, 0x000E), (0xF000, 0x1000), (0xF000, 0x2000), (0xF000, 0x3000),
   (0xF000, 0x4000), (0xF000, 0x5000), (0xF000, 0x6000), (0xF000, 0x7000), (0xF00F, 0x8000),
   (0xF00F, 0x8001), (0xF00F, 0x8002), (0xF00F, 0x8003), (0xF00F, 0x8004), (0xF00F, 0x8005),
   (0xF00F, 0x8006), (0xF00F, 0x8007), (0xF00F, 0x800E), (0xF000, 0x9000), (0xF000, 0xA000),
   (0xF000, 0xB000), (0xF000, 0xC000), (0xF000, 0xD000)] ++
  [(0xF0FF, 0xE09E), (0xF0FF, 0xE0A1), (0xF0FF, 0xF007), (0xF0FF, 0xF00A), (0xF0FF, 0xF015),
   (0xF0FF, 0xF018), (0xF0FF, 0xF01E), (0xF0FF, 0xF029), (0xF0FF, 0xF033), (0xF0FF, 0xF055),
   (0xF0FF, 0xF065)]

end Sys2Proof
end

