-- ==== Sys2Proof/Config.lean ====
section
/-! DEFINITION. What the hardware fixes (00_scope.md R7, R8) and the two free inputs. -/

namespace Sys2Proof

/-- `MEM_SIZE` (R7): the bytes of Memory. -/
abbrev Config.memSize : Nat := 4096

/-- `PROG_BASE` (R7): where `load` writes the first byte of a program. -/
abbrev Config.progBase : Nat := 512

/-- `ROM_MAX` (R7): the largest program image `load` accepts. -/
abbrev Config.romMax : Nat := 3584

/-- `FONT_BASE` (R8, D17): the address of the glyph of digit 0. -/
abbrev Config.fontBase : Nat := 0

/-- The bytes of one glyph (43_index_memory.md R132, D17). -/
abbrev Config.glyphSize : Nat := 5

/-- The value of `PC` after reset (10_state.md R27, D4). -/
abbrev Config.resetPc : Word := 0

/-- FREE VALUE: the answers of the random source, one for each draw (60_exceptions.md R203).
It has no body: nothing can be proved of any of its values. DESIGN CHOICE in log entry 3; safe. -/
opaque Config.randByte : Nat → Byte

/-- FREE VALUE: the key state the host presents, one 16-bit value for each sample, bit k = key k is
down (60_exceptions.md R200). It has no body. DESIGN CHOICE in log entry 2; safe. -/
opaque Config.keysInput : Nat → Word

end Sys2Proof
end

