-- ==== Sys2Proof/Machine/State.lean ====
section
/-! DEFINITION. The state of the engine (10_state.md), its error records (60_exceptions.md R187), the
ways a step can stop, and the state after reset (R27, R220). -/

namespace Sys2Proof.Machine

/-- An error record `(kind, info)` (60_exceptions.md R180, R187). -/
inductive ErrorRecord where
  /-- Code 1: the offending address (at least 4096), or register index (at least 16) of a host accessor. -/
  | outOfBounds (info : Nat)
  /-- Code 2: the address that could not be pushed. -/
  | stackOverflow (info : Word)
  /-- Code 3: nothing is recorded. -/
  | stackUnderflow
  /-- Code 4: the word that is no instruction. -/
  | invalidInstruction (info : Word)
  /-- Code 5: the length of the refused image. -/
  | romTooLarge (info : Nat)
deriving DecidableEq, Repr

/-- Why the machine stops. -/
inductive Fault where
  /-- The engine is halted: FAULT holds `e`, and `step`, `execute`, `tick` and the host's mutators are
  refused and report it again (10_state.md R23, 60_exceptions.md R188). Raised by `execute`, `cycle`
  and `tick` in a halted state and in no other. Safe: it is what the spec says. The error itself is no
  fault of a step: the step that raises it answers the next state, with FAULT latched (log 1). -/
  | halted (e : ErrorRecord)
deriving DecidableEq, Repr

/-- Why an instruction has no meaning. -/
inductive Refusal where
  /-- An instruction without a meaning, rejected by name in `exec`'s arm. No arm answers it: every
  instruction has its meaning. Safe. -/
  | notModelled (mnemonic : String)
deriving DecidableEq, Repr

/-- Memory (20_memory.md R40): the cells that are not 0, by rising address. A cell that is not listed
reads as 0, its value after reset (10_state.md R27, R29). -/
abbrev Memory := List Host.Cell

/-- The canonical form: addresses strictly rise, exist (R40), and no listed byte is 0. -/
abbrev Memory.wf (m : Memory) : Prop :=
  m.Pairwise (fun c d => c.1 < d.1) ∧ ∀ c ∈ m, c.1 < Config.memSize ∧ c.2 ≠ 0

/-- The rows of the Display Buffer (10_state.md R20): pixel (col, row) is bit `col` of row `row`, so
that `D[row * 64 + col]` is one bit of 32 rows of 64 (see `State.pixel`). -/
abbrev Display := Vector (BitVec 64) 32

/-- Every piece of state the spec gives the machine (10_state.md R10 to R30), and two counters of the
model's own. Plain data: KEYS and the random byte are inputs and no state (R25). -/
structure State where
  /-- V[0] .. V[15]; V[15] is VF (R10, R11) -/
  v : Vector Byte 16
  /-- the index register I (R13) -/
  i : Word
  /-- the program counter PC (R15) -/
  pc : Word
  /-- the delay timer DT (R14) -/
  dt : Byte
  /-- the sound timer ST (R14) -/
  st : Byte
  /-- the call stack S[0] .. S[15] (R18) -/
  stack : Vector Word 16
  /-- the stack pointer SP, the number of entries on the stack, 0..16 (R19) -/
  sp : Fin 17
  /-- Memory (R29) -/
  mem : Memory
  /-- the Display Buffer D (R20) -/
  display : Display
  /-- the status register FAULT (R23) -/
  fault : Option ErrorRecord
  /-- MODEL'S OWN: the random bytes drawn so far, the index of the next one (log 3, 4) -/
  randDraws : Nat
  /-- MODEL'S OWN: the samples of KEYS taken so far, the index of the next one (log 2, 4) -/
  keySamples : Nat
deriving DecidableEq, Repr

/-- The machine after reset (10_state.md R27, 70_reset_and_hazards.md R220): all registers, the stack,
Memory and the display zero, FAULT empty. The two counters start at 0 (DESIGN CHOICE, log 4). -/
def State.reset : State where
  v := Vector.replicate 16 0
  i := 0
  pc := Config.resetPc
  dt := 0
  st := 0
  stack := Vector.replicate 16 0
  sp := 0
  mem := []
  display := Vector.replicate 32 0
  fault := none
  randDraws := 0
  keySamples := 0

end Sys2Proof.Machine
end

