-- ==== Sys2Proof/Machine/Ops.lean ====
section
/-! DEFINITION. The named operations over registers, Memory, the stack, the display and FAULT
(10_state.md, 20_memory.md, 60_exceptions.md). Every access of every instruction goes through them. -/

namespace Sys2Proof.Machine

/-- What a step, an execute and a tick answer. -/
abbrev Answer := Host.Outcome State Fault Refusal

/-! ### General registers (10_state.md R10, R11) -/

/-- `V[x]`. -/
def State.reg (s : State) (x : Nibble) : Byte := s.v[x.toNat]'x.isLt

/-- `V[x] <- b`. -/
def State.setReg (s : State) (x : Nibble) (b : Byte) : State :=
  { s with v := s.v.set x.toNat b x.isLt }

/-- The index of VF (R11). -/
def vf : Nibble := 0xF

/-- `V[k] <- b[0], V[k+1] <- b[1], ..` in ascending order (43_index_memory.md R138). -/
def State.setRegs (s : State) : Nat → List Byte → State
  | _, [] => s
  | k, b :: bs => (s.setReg (BitVec.ofNat 4 k) b).setRegs (k + 1) bs

/-- The bytes `V[0], .., V[x]` in ascending order (43_index_memory.md R137). -/
def State.regsUpTo (s : State) (x : Nibble) : List Byte := s.v.toList.take (x.toNat + 1)

/-! ### Program counter (10_state.md R15 to R17) -/

/-- `PC <- (PC + 2) mod 65536`: the driver's advance (R24) and the host's `advance_pc` (R28). -/
def State.advancePc (s : State) : State := { s with pc := s.pc + 2 }

/-- `PC <- (PC - 2) mod 65536`: the driver's advance undone (45_timer_keypad.md R164). -/
def State.retreatPc (s : State) : State := { s with pc := s.pc - 2 }

/-- The skip (40_flow.md R88): 2 extra when the condition holds, else 0 extra. -/
def State.skipIf (s : State) (c : Bool) : State := { s with pc := if c then s.pc + 2 else s.pc }

/-! ### Taking an error (60_exceptions.md R186 to R190) -/

/-- TAKING AN ERROR: FAULT is latched and nothing else changes (R186, R188). A record already latched
stays (10_state.md R23: the first error; never changed until reset). There is no handler and no
return (R189): only `State.reset` clears FAULT. -/
def State.raise (s : State) (e : ErrorRecord) : State :=
  { s with fault := some (s.fault.getD e) }

/-- The end of an operation that can raise: its result, or, where it raised, the state before it with
the error taken (R186: no partial effect). -/
def State.settle (s : State) : Except ErrorRecord State → State
  | .ok t => t
  | .error e => s.raise e

/-! ### Memory (20_memory.md R40 to R43) -/

/-- The byte at `a`; a cell that is not listed is 0. -/
def Memory.read : Memory → Nat → Byte
  | [], _ => 0
  | (k, b) :: m, a => if a = k then b else Memory.read m a

/-- A cell put in its place by address. -/
def Memory.insert (a : Nat) (b : Byte) : Memory → Memory
  | [] => [(a, b)]
  | (k, c) :: m => if a < k then (a, b) :: (k, c) :: m else (k, c) :: Memory.insert a b m

/-- `Mem[a] <- b`, in canonical form: the cell is taken out and, unless `b` is 0, put back. -/
def Memory.write (m : Memory) (a : Nat) (b : Byte) : Memory :=
  if b = 0 then m.filter (fun c => c.1 != a) else Memory.insert a b (m.filter (fun c => c.1 != a))

/-- `Mem[a] <- b[0], Mem[a+1] <- b[1], ..` in ascending order. -/
def Memory.writeBlock (m : Memory) : Nat → List Byte → Memory
  | _, [] => m
  | a, b :: bs => Memory.writeBlock (m.write a b) (a + 1) bs

/-- `Mem[a], Mem[a+1], ..`, `n` bytes in ascending order. -/
def Memory.readBlock (m : Memory) : Nat → Nat → List Byte
  | _, 0 => []
  | a, n + 1 => m.read a :: Memory.readBlock m (a + 1) n

/-- `MemRead(a, 1)` (R42): OutOfBounds(a) where there is no cell. -/
def State.memRead (s : State) (a : Nat) : Except ErrorRecord Byte :=
  if a < Config.memSize then .ok (s.mem.read a) else .error (.outOfBounds a)

/-- `MemWrite(a, 1, b)` (R43): OutOfBounds(a) where there is no cell. -/
def State.memWrite (s : State) (a : Nat) (b : Byte) : Except ErrorRecord State :=
  if a < Config.memSize then .ok { s with mem := s.mem.write a b } else .error (.outOfBounds a)

/-- The check of an instruction that accesses the `count` bytes from `first`, made before its first
write (43_index_memory.md R133): where one of them does not exist, OutOfBounds of the lowest such
address; else the result `t`. With no byte to access there is nothing to check (44_display.md R152). -/
def guardSpan (first count : Nat) (t : State) : Except ErrorRecord State :=
  if count = 0 ∨ first + count ≤ Config.memSize then .ok t
  else .error (.outOfBounds (max first Config.memSize))

/-- Instruction fetch (10_state.md R24, 20_memory.md R49): two byte reads at PC and PC + 1, the first
the more significant; PC + 1 is not wrapped. -/
def State.fetch (s : State) : Except ErrorRecord Word :=
  match s.memRead s.pc.toNat with
  | .error e => .error e
  | .ok hi =>
    match s.memRead (s.pc.toNat + 1) with
    | .error e => .error e
    | .ok lo => .ok (joinBytes hi lo)

/-- An instruction word laid out at `a` as the hardware stores it, high byte first (20_memory.md R49);
a byte with no cell is dropped. -/
def State.placeWord (s : State) (a : Nat) (w : Word) : State :=
  let s₁ := if a < Config.memSize then { s with mem := s.mem.write a (hiByte w) } else s
  if a + 1 < Config.memSize then { s₁ with mem := s₁.mem.write (a + 1) (loByte w) } else s₁

/-! ### Call stack (10_state.md R18 to R22) -/

/-- `push(a)` (R21): StackOverflow(a) on a full stack, and then neither S nor SP changes. -/
def State.push (s : State) (a : Word) : Except ErrorRecord State :=
  if h : s.sp.val < 16 then
    .ok { s with stack := s.stack.set s.sp.val a h, sp := ⟨s.sp.val + 1, by omega⟩ }
  else .error (.stackOverflow a)

/-- `pop()` (R22): the popped address and the state after; the entry keeps its value. StackUnderflow on
an empty stack. -/
def State.pop (s : State) : Except ErrorRecord (Word × State) :=
  if h : 0 < s.sp.val then
    .ok (s.stack[s.sp.val - 1]'(by omega), { s with sp := ⟨s.sp.val - 1, by omega⟩ })
  else .error .stackUnderflow

/-! ### Display Buffer (10_state.md R20, 44_display.md R150) -/

/-- The pixel at (col mod 64, row mod 32). -/
def Display.pixel (d : Display) (col row : Nat) : Bool :=
  (d[row % 32]'(Nat.mod_lt _ (by decide))).getLsbD (col % 64)

/-- `D[j]`, `j = row * 64 + col` (R20). -/
def State.pixel (s : State) (j : Nat) : Bool := s.display.pixel (j % 64) (j / 64)

/-- The pixel at (col mod 64, row mod 32) changed from on to off or from off to on. -/
def Display.toggle (d : Display) (col row : Nat) : Display :=
  d.set (row % 32) (d[row % 32]'(Nat.mod_lt _ (by decide)) ^^^ (1#64 <<< (col % 64)))
    (Nat.mod_lt _ (by decide))

/-- The display while a sprite is drawn, and whether a pixel has been switched off so far (R152). -/
structure Canvas where
  d : Display
  erased : Bool
deriving DecidableEq, Repr

/-- One 1 bit of a sprite (R152): note the erasure, toggle the pixel. -/
def Canvas.dot (k : Canvas) (col row : Nat) : Canvas :=
  { d := k.d.toggle col row, erased := k.erased || k.d.pixel col row }

/-- The pixels `c` of one sprite row (R152, R153): pixel `c` is bit `7 - c`, bit 7 the leftmost. -/
def Canvas.drawBits (k : Canvas) (cx row : Nat) (b : Byte) : List Nat → Canvas
  | [] => k
  | c :: cs => (if b.getLsbD (7 - c) then k.dot (cx + c) row else k).drawBits cx row b cs

/-- One row of a sprite: pixels 0 to 7 in order (R152). -/
def Canvas.drawRow (k : Canvas) (cx row : Nat) (b : Byte) : Canvas :=
  k.drawBits cx row b [0, 1, 2, 3, 4, 5, 6, 7]

/-- The rows of a sprite, the top row first (R152, R153). -/
def Canvas.drawRows (k : Canvas) (cx : Nat) : Nat → List Byte → Canvas
  | _, [] => k
  | row, b :: bs => (k.drawRow cx row b).drawRows cx (row + 1) bs

/-! ### Inputs (60_exceptions.md R200, R203) -/

/-- `rand()`: one fresh byte from the random source, and the state after the draw (R203). -/
def State.drawRand (s : State) : Byte × State :=
  (Config.randByte s.randDraws, { s with randDraws := s.randDraws + 1 })

/-- One sample of KEYS, and the state after it (R200). -/
def State.sampleKeys (s : State) : Word × State :=
  (Config.keysInput s.keySamples, { s with keySamples := s.keySamples + 1 })

end Sys2Proof.Machine
end

