-- ==== Sys2Proof/Machine/Operands.lean ====
section
/-! DEFINITION. The operand forms (30_encoding.md R63, 43_index_memory.md R133): zero extension, the
effective address, key and digit selection, and the BCD digits. -/

namespace Sys2Proof.Machine

/-- `zext_16(nnn)` (R63). -/
def zextImm (nnn : Imm12) : Word := nnn.setWidth 16

/-- `zext_16(b)`, of a byte. -/
def zextByte (b : Byte) : Word := b.setWidth 16

/-- The effective address of the bytes an instruction accesses: `I` as a natural number, never wrapped
(20_memory.md R51, 43_index_memory.md R133). -/
def State.ea (s : State) : Nat := s.i.toNat

/-- `V[x][3:0]`: the low nibble of a register's value, which selects a key (45_timer_keypad.md R160) or
a digit (43_index_memory.md R132). -/
def lowNibble (b : Byte) : Nibble := b.extractLsb' 0 4

/-- `keydown(v) = KEYS[v[3:0]]` (45_timer_keypad.md R160). -/
def keyDown (keys : Word) (b : Byte) : Bool := keys.getLsbD (lowNibble b).toNat

/-- The number of the lowest key that is down (45_timer_keypad.md R164); 0 where none is. -/
def lowestKey (keys : Word) : Byte :=
  BitVec.ofNat 8 (([0, 1, 2, 3, 4, 5, 6, 7, 8, 9, 10, 11, 12, 13, 14, 15].find? keys.getLsbD).getD 0)

/-- `FONT_BASE + 5 * d`, the address of the glyph of a digit (43_index_memory.md R132). -/
def glyphAddress (d : Nibble) : Word :=
  BitVec.ofNat 16 (Config.fontBase + Config.glyphSize * d.toNat)

/-- The three digits of `bcd(b)` (43_index_memory.md R134), hundreds, tens, ones, each a whole byte. -/
def bcd (b : Byte) : List Byte :=
  [BitVec.ofNat 8 (b.toNat / 100), BitVec.ofNat 8 (b.toNat / 10 % 10), BitVec.ofNat 8 (b.toNat % 10)]

/-- The start column and start row of a sprite (44_display.md R152), `V[x] mod 64`. -/
def startColumn (b : Byte) : Nat := b.toNat % 64

/-- The start row of a sprite (44_display.md R152), `V[y] mod 32`. -/
def startRow (b : Byte) : Nat := b.toNat % 32

end Sys2Proof.Machine
end

