-- ==== Sys2Proof/Machine/Flags.lean ====
section
/-! DEFINITION. Every value an instruction writes to VF (10_state.md R12), and the order of the flag
write and the result write (42_alu.md R110). -/

namespace Sys2Proof.Machine

/-- The widened sum of `8xy4` (42_alu.md R115): 16 bits, no wrap. -/
def wideSum (a b : Byte) : Word := zextByte a + zextByte b

/-- ADD: 1 if the sum exceeds 255, else 0 (R12, R115). -/
def carryFlag (a b : Byte) : Byte := if 255 < wideSum a b then 1 else 0

/-- SUB `a - b`: 0 if `a < b` (borrow), else 1 (R12, R116); SUBN is `b - a` (R118). -/
def noBorrowFlag (a b : Byte) : Byte := if a < b then 0 else 1

/-- SHR: bit 0, the bit shifted out (R12, R117). -/
def shrFlag (a : Byte) : Byte := if a.getLsbD 0 then 1 else 0

/-- SHL: the raw masked value 0x00 or 0x80 (R12, R119, D6). -/
def shlFlag (a : Byte) : Byte := a &&& 0x80

/-- DRW: 1 if a pixel was switched from on to off, else 0 (R12, 44_display.md R152). -/
def collisionFlag (erased : Bool) : Byte := if erased then 1 else 0

/-- The two writes of a flag-setting instruction: VF first, the result last (R110, D8). -/
def State.setFlagThenReg (s : State) (flag : Byte) (x : Nibble) (result : Byte) : State :=
  (s.setReg vf flag).setReg x result

end Sys2Proof.Machine
end

