-- ==== Sys2Proof/Machine/Alu.lean ====
section
/-! DEFINITION. Register-register arithmetic and logic (42_alu.md). Sources are sampled before any
write; of the flag-setting five, VF is written first and the result last (R110). -/

namespace Sys2Proof.Machine

/-- `LD Vx, Vy` (R111). -/
def execLdReg (x y : Nibble) (s : State) : Answer := .next (s.setReg x (s.reg y))

/-- `OR Vx, Vy` (R112): VF is not written. -/
def execOrReg (x y : Nibble) (s : State) : Answer := .next (s.setReg x (s.reg x ||| s.reg y))

/-- `AND Vx, Vy` (R113): VF is not written. -/
def execAndReg (x y : Nibble) (s : State) : Answer := .next (s.setReg x (s.reg x &&& s.reg y))

/-- `XOR Vx, Vy` (R114): VF is not written. -/
def execXorReg (x y : Nibble) (s : State) : Answer := .next (s.setReg x (s.reg x ^^^ s.reg y))

/-- `ADD Vx, Vy` (R115): the low 8 bits of the widened sum. -/
def execAddReg (x y : Nibble) (s : State) : Answer :=
  .next (s.setFlagThenReg (carryFlag (s.reg x) (s.reg y)) x
    ((wideSum (s.reg x) (s.reg y)).extractLsb' 0 8))

/-- `SUB Vx, Vy` (R116): Vx minus Vy, wrapped. -/
def execSub (x y : Nibble) (s : State) : Answer :=
  .next (s.setFlagThenReg (noBorrowFlag (s.reg x) (s.reg y)) x (s.reg x - s.reg y))

/-- `SHR Vx` (R117): V[y] is neither read nor written. -/
def execShr (x _y : Nibble) (s : State) : Answer :=
  .next (s.setFlagThenReg (shrFlag (s.reg x)) x (s.reg x >>> 1))

/-- `SUBN Vx, Vy` (R118): Vy minus Vx, wrapped. -/
def execSubn (x y : Nibble) (s : State) : Answer :=
  .next (s.setFlagThenReg (noBorrowFlag (s.reg y) (s.reg x)) x (s.reg y - s.reg x))

/-- `SHL Vx` (R119, D6): V[y] is neither read nor written. -/
def execShl (x _y : Nibble) (s : State) : Answer :=
  .next (s.setFlagThenReg (shlFlag (s.reg x)) x (s.reg x <<< 1))

end Sys2Proof.Machine
end

