-- ==== Sys2Proof/Machine/Display.lean ====
section
/-! DEFINITION. The display instructions (44_display.md). -/

namespace Sys2Proof.Machine

/-- `CLS` (R151): all pixels off; VF is not written. -/
def execCls (s : State) : Answer := .next { s with display := Vector.replicate 32 0 }

/-- The display and the collision after the sprite `rows` is drawn at the position of `DRW` (R152). -/
def State.drawn (s : State) (x y : Nibble) (rows : List Byte) : Canvas :=
  Canvas.drawRows ⟨s.display, false⟩ (startColumn (s.reg x)) (startRow (s.reg y)) rows

/-- The state after a sprite is drawn: the display, then VF, written last (R152). -/
def State.drawSprite (s : State) (x y : Nibble) (rows : List Byte) : State :=
  State.setReg { s with display := (s.drawn x y rows).d } vf
    (collisionFlag (s.drawn x y rows).erased)

/-- `DRW Vx, Vy, n` (R152, D14): the `n` bytes from I are the rows; with `n` = 0 nothing is read. -/
def execDrw (x y n : Nibble) (s : State) : Answer :=
  .next (s.settle (guardSpan s.ea n.toNat (s.drawSprite x y (s.mem.readBlock s.ea n.toNat))))

end Sys2Proof.Machine
end

