-- ==== Sys2Proof/Machine/Flow.lean ====
section
/-! DEFINITION. Control transfer (40_flow.md). PC on entry is what the caller left there: under
`step` the address of the instruction plus 2 (10_state.md R16). -/

namespace Sys2Proof.Machine

/-- `RET` (R80): PC takes the popped address as it is; StackUnderflow on an empty stack. -/
def execRet (s : State) : Answer :=
  .next (s.settle (match s.pop with
    | .ok (a, t) => .ok { t with pc := a }
    | .error e => .error e))

/-- `JP nnn` (R81). -/
def execJp (nnn : Imm12) (s : State) : Answer := .next { s with pc := zextImm nnn }

/-- `CALL nnn` (R82, D5): the target is pushed and PC is not written; StackOverflow on a full stack. -/
def execCall (nnn : Imm12) (s : State) : Answer := .next (s.settle (s.push (zextImm nnn)))

/-- `SE Vx, kk` (R83). -/
def execSeImm (x : Nibble) (kk : Byte) (s : State) : Answer := .next (s.skipIf (s.reg x == kk))

/-- `SNE Vx, kk` (R84). -/
def execSneImm (x : Nibble) (kk : Byte) (s : State) : Answer := .next (s.skipIf (s.reg x != kk))

/-- `SE Vx, Vy` (R85). -/
def execSeReg (x y : Nibble) (s : State) : Answer := .next (s.skipIf (s.reg x == s.reg y))

/-- `SNE Vx, Vy` (R86). -/
def execSneReg (x y : Nibble) (s : State) : Answer := .next (s.skipIf (s.reg x != s.reg y))

/-- `JP V0, nnn` (R87): not reduced to 12 bits, always V[0]. -/
def execJpV0 (nnn : Imm12) (s : State) : Answer :=
  .next { s with pc := zextImm nnn + zextByte (s.reg 0) }

end Sys2Proof.Machine
end

