-- ==== Sys2Proof/Machine/Immediate.lean ====
section
/-! DEFINITION. Register-immediate instructions (41_immediate.md). -/

namespace Sys2Proof.Machine

/-- `LD Vx, kk` (R100). -/
def execLdImm (x : Nibble) (kk : Byte) (s : State) : Answer := .next (s.setReg x kk)

/-- `ADD Vx, kk` (R101, D9): modulo 256, VF not written; the Register File's `add_to_general`
(10_state.md R28). -/
def State.addToGeneral (s : State) (x : Nibble) (kk : Byte) : State := s.setReg x (s.reg x + kk)

/-- `ADD Vx, kk` (R101). -/
def execAddImm (x : Nibble) (kk : Byte) (s : State) : Answer := .next (s.addToGeneral x kk)

/-- `RND Vx, kk` with the drawn byte `r` (R102). -/
def rndWith (r : Byte) (x : Nibble) (kk : Byte) (s : State) : State := s.setReg x (kk &&& r)

/-- `RND Vx, kk` (R102): exactly one byte is drawn. -/
def execRnd (x : Nibble) (kk : Byte) (s : State) : Answer :=
  .next (rndWith s.drawRand.1 x kk s.drawRand.2)

end Sys2Proof.Machine
end

