-- ==== Sys2Proof/Machine/IndexMemory.lean ====
section
/-! DEFINITION. The index register and the memory instructions (43_index_memory.md). Every access is
checked before the first write (R133). -/

namespace Sys2Proof.Machine

/-- `LD I, nnn` (R130). -/
def execLdI (nnn : Imm12) (s : State) : Answer := .next { s with i := zextImm nnn }

/-- `ADD I, Vx` (R131, D10): modulo 65536, VF not written. -/
def execAddI (x : Nibble) (s : State) : Answer := .next { s with i := s.i + zextByte (s.reg x) }

/-- `LD F, Vx` (R132, D17). -/
def execLdF (x : Nibble) (s : State) : Answer :=
  .next { s with i := glyphAddress (lowNibble (s.reg x)) }

/-- `LD B, Vx` (R136): hundreds, tens and ones at I, I + 1, I + 2. -/
def execLdB (x : Nibble) (s : State) : Answer :=
  .next (s.settle (guardSpan s.ea 3 { s with mem := s.mem.writeBlock s.ea (bcd (s.reg x)) }))

/-- `LD [I], Vx` (R137): V[0] .. V[x] at I .. I + x, then I advances by x + 1 (modulo 65536, D10). -/
def execStoreRegs (x : Nibble) (s : State) : Answer :=
  .next (s.settle (guardSpan s.ea (x.toNat + 1)
    { s with
      mem := s.mem.writeBlock s.ea (s.regsUpTo x)
      i := s.i + BitVec.ofNat 16 (x.toNat + 1) }))

/-- `LD Vx, [I]` (R138, D7): V[0] .. V[x] from I .. I + x; I is not written. -/
def execLoadRegs (x : Nibble) (s : State) : Answer :=
  .next (s.settle (guardSpan s.ea (x.toNat + 1)
    (s.setRegs 0 (s.mem.readBlock s.ea (x.toNat + 1)))))

end Sys2Proof.Machine
end

