-- ==== Sys2Proof/Machine/TimerKeypad.lean ====
section
/-! DEFINITION. The keypad and timer instructions (45_timer_keypad.md). Each key instruction samples
KEYS exactly once (60_exceptions.md R200). -/

namespace Sys2Proof.Machine

/-- `SKP Vx` with the sampled `keys` (R161). -/
def skpWith (keys : Word) (x : Nibble) (s : State) : State := s.skipIf (keyDown keys (s.reg x))

/-- `SKP Vx` (R161). -/
def execSkp (x : Nibble) (s : State) : Answer := .next (skpWith s.sampleKeys.1 x s.sampleKeys.2)

/-- `SKNP Vx` with the sampled `keys` (R162). -/
def sknpWith (keys : Word) (x : Nibble) (s : State) : State := s.skipIf (!keyDown keys (s.reg x))

/-- `SKNP Vx` (R162). -/
def execSknp (x : Nibble) (s : State) : Answer := .next (sknpWith s.sampleKeys.1 x s.sampleKeys.2)

/-- `LD Vx, K` with the sampled `keys` (R164, D16): with no key down only PC moves back, so that the
same word is fetched again; else the lowest key down. -/
def waitKeyWith (keys : Word) (x : Nibble) (s : State) : State :=
  if keys = 0 then s.retreatPc else s.setReg x (lowestKey keys)

/-- `LD Vx, K` (R164). -/
def execLdVxK (x : Nibble) (s : State) : Answer :=
  .next (waitKeyWith s.sampleKeys.1 x s.sampleKeys.2)

/-- `LD Vx, DT` (R163). -/
def execLdVxDt (x : Nibble) (s : State) : Answer := .next (s.setReg x s.dt)

/-- `LD DT, Vx` (R165). -/
def execLdDtVx (x : Nibble) (s : State) : Answer := .next { s with dt := s.reg x }

/-- `LD ST, Vx` (R166). -/
def execLdStVx (x : Nibble) (s : State) : Answer := .next { s with st := s.reg x }

/-- A timer's decrement (60_exceptions.md R196): only when it is not zero. -/
def countDown (b : Byte) : Byte := if b = 0 then 0 else b - 1

end Sys2Proof.Machine
end

