-- ==== Sys2Proof/Machine/Cycle.lean ====
section
/-! DEFINITION. The instruction cycle: `execute(w)` (30_encoding.md R66) and `step()` (10_state.md R24),
with the halt (60_exceptions.md R188), the precise error (R186, R190) and the order of the checks
(R191). -/

namespace Sys2Proof.Machine

/-- `execute(w)` (30_encoding.md R66): refused when halted; InvalidInstruction(w) where the word is not
in the dispatch table; else the row's rule. It adds nothing to PC (10_state.md R16). -/
def execute (w : Word) (s : State) : Answer :=
  match s.fault with
  | some e => .fault (.halted e)
  | none =>
    match decode w with
    | .error _ => .next (s.raise (.invalidInstruction w))
    | .ok i => exec i s

/-- Where an operation that began in `s` (not halted) raised, its result is `s` with the error taken:
under `step()` the advance of PC is undone too (60_exceptions.md R186). -/
def State.precise (s t : State) : State :=
  match t.fault with
  | none => t
  | some e => s.raise e

/-- The answer of `execute` inside a cycle that began in `s`. -/
def State.preciseAnswer (s : State) : Answer → Answer
  | .next t => .next (s.precise t)
  | .fault r => .fault r
  | .refused r => .refused r

/-- `step()` (10_state.md R24): refused when halted; fetch; PC + 2; `execute`. An error of the fetch or
of `execute` leaves every write undone but FAULT. Timers are not touched. -/
def cycle (s : State) : Answer :=
  match s.fault with
  | some e => .fault (.halted e)
  | none =>
    match s.fetch with
    | .error e => .next (s.raise e)
    | .ok w => s.preciseAnswer (execute w s.advancePc)

end Sys2Proof.Machine
end

