-- ==== Sys2Proof/Machine/Transactions.lean ====
section
/-! DEFINITION. The host's transactions (00_scope.md R4, 70_reset_and_hazards.md R229): what the world
outside may do between two instructions. Each is atomic (R3, R4). KEYS and `rand` are no transactions
of their own: the instructions that use them take them as free inputs (log 2, 3). -/

namespace Sys2Proof.Machine

/-- The host's operations (R4). -/
inductive HostOp where
  /-- 70_reset_and_hazards.md R220 -/
  | reset
  /-- 20_memory.md R47 -/
  | load (bytes : List Byte)
  /-- 20_memory.md R44 -/
  | getByte (a : Nat)
  /-- 20_memory.md R45 -/
  | setByte (a : Nat) (b : Byte)
  /-- the accessor of `V[k]`, 10_state.md R28 -/
  | getV (k : Nat)
  /-- the mutator of `V[k]`, R28 -/
  | setV (k : Nat) (b : Byte)
  /-- R28 -/
  | getI
  /-- R28 -/
  | setI (w : Word)
  /-- R28 -/
  | getDt
  /-- R28 -/
  | setDt (b : Byte)
  /-- R28 -/
  | getSt
  /-- R28 -/
  | setSt (b : Byte)
  /-- R28 -/
  | getPc
  /-- R28, 70_reset_and_hazards.md R223 -/
  | setPc (w : Word)
  /-- 10_state.md R21, R28 -/
  | push (a : Word)
  /-- 10_state.md R22, R28 -/
  | pop
  /-- `advance_pc()`, R28 -/
  | advancePc
  /-- `add_to_general(k, b)`, R28 -/
  | addToGeneral (k : Nat) (b : Byte)
  /-- 10_state.md R24 -/
  | step
  /-- 30_encoding.md R66 -/
  | execute (w : Word)
  /-- 60_exceptions.md R196 -/
  | tick
  /-- 60_exceptions.md R205 -/
  | displayRead
deriving DecidableEq, Repr

/-- What the host is answered. -/
inductive Reply where
  /-- The operation is done and returns nothing. -/
  | done
  /-- The byte read. -/
  | byte (b : Byte)
  /-- The word read. -/
  | word (w : Word)
  /-- `D[0] .. D[2047]`, row-major (60_exceptions.md R205). -/
  | pixels (ds : List Bool)
  /-- The operation raised this error (60_exceptions.md R187). -/
  | failed (e : ErrorRecord)
  /-- The operation is refused: the engine is halted, and this is the latched record (R188). -/
  | halted (e : ErrorRecord)
  /-- The instruction has no meaning in the model; no instruction answers this. -/
  | unmodelled (r : Refusal)
deriving DecidableEq, Repr

/-- `load(bytes)` (20_memory.md R47): RomTooLarge beyond 3584 bytes and then nothing is written; else
the cells 512 .. 512 + L - 1 and no other. -/
def State.load (s : State) (bytes : List Byte) : Except ErrorRecord State :=
  if Config.romMax < bytes.length then .error (.romTooLarge bytes.length)
  else .ok { s with mem := s.mem.writeBlock Config.progBase bytes }

/-- The accessor of a general register by number (10_state.md R28). -/
def State.getV (s : State) (k : Nat) : Except ErrorRecord Byte :=
  if k < 16 then .ok (s.reg (BitVec.ofNat 4 k)) else .error (.outOfBounds k)

/-- The mutator of a general register by number (10_state.md R28). -/
def State.setV (s : State) (k : Nat) (b : Byte) : Except ErrorRecord State :=
  if k < 16 then .ok (s.setReg (BitVec.ofNat 4 k) b) else .error (.outOfBounds k)

/-- `add_to_general(k, b)` (10_state.md R28): modulo 256, VF untouched. -/
def State.addV (s : State) (k : Nat) (b : Byte) : Except ErrorRecord State :=
  if k < 16 then .ok (s.addToGeneral (BitVec.ofNat 4 k) b) else .error (.outOfBounds k)

/-- `tick()` (60_exceptions.md R196): refused when halted; each timer that is not zero minus 1. -/
def tick (s : State) : Answer :=
  match s.fault with
  | some e => .fault (.halted e)
  | none => .next { s with dt := countDown s.dt, st := countDown s.st }

/-- `display_read()` (60_exceptions.md R205). -/
def State.displayRead (s : State) : List Bool := (List.range 2048).map s.pixel

/-- The end of an operation that returns a value: where it raised, the error is taken and reported
(60_exceptions.md R187). Reads are answered also when halted (R188). -/
def State.replyValue (s : State) : Except ErrorRecord Reply → State × Reply
  | .ok r => (s, r)
  | .error e => (s.raise e, .failed e)

/-- The end of a mutator: refused when halted (60_exceptions.md R188, 70_reset_and_hazards.md R229: the
faulted state is frozen; log 8); where it raised, the error is taken and reported. -/
def State.replyState (s : State) (r : Except ErrorRecord (State × Reply)) : State × Reply :=
  match s.fault with
  | some e => (s, .halted e)
  | none =>
    match r with
    | .ok tr => tr
    | .error e => (s.raise e, .failed e)

/-- The end of a step, an execute and a tick. -/
def State.replyAnswer (s : State) : Answer → State × Reply
  | .next t =>
    match t.fault with
    | none => (t, .done)
    | some e => (t, .failed e)
  | .fault (.halted e) => (s, .halted e)
  | .refused r => (s, .unmodelled r)

/-- A mutator's result, which returns nothing. -/
def quietly : Except ErrorRecord State → Except ErrorRecord (State × Reply)
  | .ok t => .ok (t, .done)
  | .error e => .error e

/-- One transaction of the host: the state after it and the reply. -/
def transact (s : State) : HostOp → State × Reply
  | .reset => ({ State.reset with randDraws := s.randDraws, keySamples := s.keySamples }, .done)
  | .load bytes => s.replyState (quietly (s.load bytes))
  | .getByte a => s.replyValue ((s.memRead a).map .byte)
  | .setByte a b => s.replyState (quietly (s.memWrite a b))
  | .getV k => s.replyValue ((s.getV k).map .byte)
  | .setV k b => s.replyState (quietly (s.setV k b))
  | .getI => (s, .word s.i)
  | .setI w => s.replyState (.ok ({ s with i := w }, .done))
  | .getDt => (s, .byte s.dt)
  | .setDt b => s.replyState (.ok ({ s with dt := b }, .done))
  | .getSt => (s, .byte s.st)
  | .setSt b => s.replyState (.ok ({ s with st := b }, .done))
  | .getPc => (s, .word s.pc)
  | .setPc w => s.replyState (.ok ({ s with pc := w }, .done))
  | .push a => s.replyState (quietly (s.push a))
  | .pop => s.replyState (s.pop.map fun at' => (at'.2, .word at'.1))
  | .advancePc => s.replyState (.ok (s.advancePc, .done))
  | .addToGeneral k b => s.replyState (quietly (s.addV k b))
  | .step => s.replyAnswer (step s)
  | .execute w => s.replyAnswer (execute w s)
  | .tick => s.replyAnswer (tick s)
  | .displayRead => (s, .pixels s.displayRead)

/-- A sequence of transactions, oldest first: a run of the machine in the hands of a host (70 R225). -/
def transactAll (s : State) : List HostOp → State
  | [] => s
  | op :: ops => transactAll (transact s op).1 ops

end Sys2Proof.Machine
end

