-- ==== Sys2Proof/Safety.lean ====
section
/-! DEFINITION. The terms claims use: the parts of the state and what stays the same, the invariants,
and the successful end of a run. -/

namespace Sys2Proof.Machine

/-- The parts of the state, one for each column of the read/write table (10_state.md R26), FAULT and
the two counters of the model's own. -/
inductive Part where
  | regs | index | pc | stack | dt | st | mem | display | fault | draws | samples
deriving DecidableEq, Repr

/-- A part is the same in two states; Memory byte by byte, the display pixel by pixel. -/
def Part.Same (s t : State) : Part → Prop
  | .regs => ∀ y, t.reg y = s.reg y
  | .index => t.i = s.i
  | .pc => t.pc = s.pc
  | .stack => t.stack = s.stack ∧ t.sp = s.sp
  | .dt => t.dt = s.dt
  | .st => t.st = s.st
  | .mem => ∀ a, t.mem.read a = s.mem.read a
  | .display => ∀ j, t.pixel j = s.pixel j
  | .fault => t.fault = s.fault
  | .draws => t.randDraws = s.randDraws
  | .samples => t.keySamples = s.keySamples

/-- Every part but the listed ones is the same in `t` as in `s`. -/
def SameBut (ps : List Part) (s t : State) : Prop := ∀ p, p ∉ ps → Part.Same s t p

/-- Every general register but `x` is the same. -/
def RegsBut (x : Nibble) (s t : State) : Prop := ∀ y, y ≠ x → t.reg y = s.reg y

/-- Every byte of Memory outside `first .. first + count - 1` is the same. -/
def MemBut (first count : Nat) (s t : State) : Prop :=
  ∀ a, a < first ∨ first + count ≤ a → t.mem.read a = s.mem.read a

/-- Every entry of the call stack but `S[j]` is the same. -/
def StackBut (j : Nat) (s t : State) : Prop :=
  ∀ k : Fin 16, k.val ≠ j → t.stack[k.val] = s.stack[k.val]

/-- The parts an instruction may write: the write columns of the read/write table (10_state.md R26),
and the counters of the inputs it asks for. -/
def writes : Instr → List Part
  | .cls => [.display]
  | .ret => [.pc, .stack]
  | .jp _ => [.pc]
  | .call _ => [.stack]
  | .seImm _ _ => [.pc]
  | .sneImm _ _ => [.pc]
  | .seReg _ _ => [.pc]
  | .ldImm _ _ => [.regs]
  | .addImm _ _ => [.regs]
  | .ldReg _ _ => [.regs]
  | .orReg _ _ => [.regs]
  | .andReg _ _ => [.regs]
  | .xorReg _ _ => [.regs]
  | .addReg _ _ => [.regs]
  | .sub _ _ => [.regs]
  | .shr _ _ => [.regs]
  | .subn _ _ => [.regs]
  | .shl _ _ => [.regs]
  | .sneReg _ _ => [.pc]
  | .ldI _ => [.index]
  | .jpV0 _ => [.pc]
  | .rnd _ _ => [.regs, .draws]
  | .drw _ _ _ => [.regs, .display]
  | .skp _ => [.pc, .samples]
  | .sknp _ => [.pc, .samples]
  | .ldVxDt _ => [.regs]
  | .ldVxK _ => [.regs, .pc, .samples]
  | .ldDtVx _ => [.dt]
  | .ldStVx _ => [.st]
  | .addI _ => [.index]
  | .ldF _ => [.index]
  | .ldB _ => [.mem]
  | .storeRegs _ => [.index, .mem]
  | .loadRegs _ => [.regs]

/-- The words with `w & mask = match` decode to the instruction `build` makes of their fields
(30_encoding.md R67). -/
def EncodedAs (mask match' : Word) (build : Fields → Instr) : Prop :=
  ∀ w, w &&& mask = match' → decode w = .ok (build (Fields.ofWord w))

/-- A set bit of the `n`-row sprite at I falls on the pixel (col, row), when it is drawn at
(V[x], V[y]) with wraparound (44_display.md R152, R153). -/
def SpriteCovers (s : State) (x y n : Nibble) (col row : Nat) : Prop :=
  ∃ r c, r < n.toNat ∧ c < 8 ∧ (s.mem.read (s.i.toNat + r)).getLsbD (7 - c) = true ∧
    col = ((s.reg x).toNat + c) % 64 ∧ row = ((s.reg y).toNat + r) % 32

/-- The engine is running: no error has been raised since reset (10_state.md R23). -/
def State.Running (s : State) : Prop := s.fault = none

/-- `t` is `s` halted by the error `e`: FAULT holds `e` and nothing else has changed
(60_exceptions.md R186, R188). -/
def HaltedBy (e : ErrorRecord) (s t : State) : Prop := t = { s with fault := some e }

/-- The latched record is one the spec lets the state hold (60_exceptions.md R181 to R185, R190): the
state is frozen as it was when the error was raised. -/
def State.FaultSound (s : State) : Prop :=
  match s.fault with
  | none => True
  | some (.outOfBounds a) => 16 ≤ a
  | some (.stackOverflow _) => s.sp = 16
  | some .stackUnderflow => s.sp = 0
  | some (.invalidInstruction w) => decode w = .error (.invalidInstruction w)
  | some (.romTooLarge n) => Config.romMax < n

/-- The invariant of the machine: Memory is in canonical form and the latched record is sound. -/
def State.Inv (s : State) : Prop := s.mem.wf ∧ s.FaultSound

/-- The successful end of a run (70_reset_and_hazards.md R225, D25): running, and PC is at the word
`1nnn` with `nnn = PC`, a jump to itself. -/
def State.Finished (s : State) : Prop :=
  s.Running ∧ ∃ nnn : Imm12, s.pc = zextImm nnn ∧ s.fetch = .ok (encode (.jp nnn))

/-- A run of `k` steps from `s` is safe when it ends in a running state. -/
def SafeRun (s : State) (k : Nat) : Prop :=
  ∃ t, Host.Core.run Sys2Proof.core k s = .next t ∧ t.Running

end Sys2Proof.Machine
end

