-- ==== Sys2Proof/Certificates/Slice0/Obligations.lean ====
section
/-! DEFINITION. The statements for the provers, in the order of the spec's files: encoding, the
instruction cycle, each family of instructions, rules of the whole machine, the host's transactions.
A statement whose docstring names a decision D<n> of 92_eei_decisions.md or a log entry rests on it. -/

open Sys2Proof Sys2Proof.Machine

/-! ### Encoding (30_encoding.md) -/

/-- Decoding an encoded instruction gives it back, with every operand at every value, alone (as a word)
and at the head of any byte stream. Ignored nibbles are encoded as the canonical ones (log 11). -/
def Obligations.DecodeOfEncode : Prop :=
  ∀ i : Instr, decode (encode i) = .ok i ∧
    ∀ rest, decodeBytes (encodeBytes i ++ rest) = .ok (i, rest)

/-- A word that decodes is encoded again as the word with the same operands and the canonical value of
the nibbles that no dispatch key looks at (R65, D26); that word decodes to the same instruction. -/
def Obligations.EncodeOfDecode : Prop :=
  ∀ (w : Word) (i : Instr), decode w = .ok i →
    encode i = canonicalWord w ∧ decode (canonicalWord w) = .ok i

/-- The dispatch table (R67): a word with `w & mask = match` is that row's instruction, with the operands
its format takes from the fields; a word decodes to an instruction only so; the 34 rows are the table's,
and no word matches two of them. -/
def Obligations.WordsMatchTheirRow : Prop :=
  (EncodedAs 0xF00F 0x0000 (fun _ => .cls) ∧
   EncodedAs 0xF00F 0x000E (fun _ => .ret) ∧
   EncodedAs 0xF000 0x1000 (fun f => .jp f.nnn) ∧
   EncodedAs 0xF000 0x2000 (fun f => .call f.nnn) ∧
   EncodedAs 0xF000 0x3000 (fun f => .seImm f.x f.kk) ∧
   EncodedAs 0xF000 0x4000 (fun f => .sneImm f.x f.kk) ∧
   EncodedAs 0xF000 0x5000 (fun f => .seReg f.x f.y) ∧
   EncodedAs 0xF000 0x6000 (fun f => .ldImm f.x f.kk) ∧
   EncodedAs 0xF000 0x7000 (fun f => .addImm f.x f.kk) ∧
   EncodedAs 0xF00F 0x8000 (fun f => .ldReg f.x f.y) ∧
   EncodedAs 0xF00F 0x8001 (fun f => .orReg f.x f.y) ∧
   EncodedAs 0xF00F 0x8002 (fun f => .andReg f.x f.y) ∧
   EncodedAs 0xF00F 0x8003 (fun f => .xorReg f.x f.y) ∧
   EncodedAs 0xF00F 0x8004 (fun f => .addReg f.x f.y) ∧
   EncodedAs 0xF00F 0x8005 (fun f => .sub f.x f.y) ∧
   EncodedAs 0xF00F 0x8006 (fun f => .shr f.x f.y) ∧
   EncodedAs 0xF00F 0x8007 (fun f => .subn f.x f.y) ∧
   EncodedAs 0xF00F 0x800E (fun f => .shl f.x f.y) ∧
   EncodedAs 0xF000 0x9000 (fun f => .sneReg f.x f.y) ∧
   EncodedAs 0xF000 0xA000 (fun f => .ldI f.nnn) ∧
   EncodedAs 0xF000 0xB000 (fun f => .jpV0 f.nnn) ∧
   EncodedAs 0xF000 0xC000 (fun f => .rnd f.x f.kk) ∧
   EncodedAs 0xF000 0xD000 (fun f => .drw f.x f.y f.n) ∧
   EncodedAs 0xF0FF 0xE09E (fun f => .skp f.x) ∧
   EncodedAs 0xF0FF 0xE0A1 (fun f => .sknp f.x) ∧
   EncodedAs 0xF0FF 0xF007 (fun f => .ldVxDt f.x) ∧
   EncodedAs 0xF0FF 0xF00A (fun f => .ldVxK f.x) ∧
   EncodedAs 0xF0FF 0xF015 (fun f => .ldDtVx f.x) ∧
   EncodedAs 0xF0FF 0xF018 (fun f => .ldStVx f.x) ∧
   EncodedAs 0xF0FF 0xF01E (fun f => .addI f.x) ∧
   EncodedAs 0xF0FF 0xF029 (fun f => .ldF f.x) ∧
   EncodedAs 0xF0FF 0xF033 (fun f => .ldB f.x) ∧
   EncodedAs 0xF0FF 0xF055 (fun f => .storeRegs f.x) ∧
   EncodedAs 0xF0FF 0xF065 (fun f => .loadRegs f.x)) ∧
  (∀ (w : Word) (i : Instr), decode w = .ok i → w &&& i.row.1 = i.row.2) ∧
  (∀ (w : Word) (r : Word × Word), r ∈ opcodeRows → w &&& r.1 = r.2 →
    ∃ i, decode w = .ok i ∧ i.row = r) ∧
  (∀ i : Instr, i.row ∈ opcodeRows) ∧ opcodeRows.length = 34

/-- The words that are no instruction, by header and second-level key, and no others (R68). -/
def Obligations.InvalidWordsAreExactlyThese : Prop :=
  ∀ w : Word, decode w = .error (.invalidInstruction w) ↔
    let h := w.toNat / 4096
    let n := w.toNat % 16
    let kk := w.toNat % 256
    (h = 0x0 ∧ n ∉ [0x0, 0xE]) ∨ (h = 0x8 ∧ n ∈ [0x8, 0x9, 0xA, 0xB, 0xC, 0xD, 0xF]) ∨
    (h = 0xE ∧ kk ∉ [0x9E, 0xA1]) ∨
    (h = 0xF ∧ kk ∉ [0x07, 0x0A, 0x15, 0x18, 0x1E, 0x29, 0x33, 0x55, 0x65])

/-- Every field is the slice of the word the spec gives it (R61), as numbers. -/
def Obligations.FieldsAreSlices : Prop :=
  ∀ w : Word,
    (Fields.ofWord w).h.toNat = w.toNat / 4096 ∧ (Fields.ofWord w).x.toNat = w.toNat / 256 % 16 ∧
    (Fields.ofWord w).y.toNat = w.toNat / 16 % 16 ∧ (Fields.ofWord w).n.toNat = w.toNat % 16 ∧
    (Fields.ofWord w).kk.toNat = w.toNat % 256 ∧ (Fields.ofWord w).nnn.toNat = w.toNat % 4096

/-- Words written out from the spec's encodings decode to the instructions they stand for (R67, S8). -/
def Obligations.SampleWordsDecode : Prop :=
  decode 0x00E0 = .ok .cls ∧ decode 0x0ABE = .ok .ret ∧ decode 0x1234 = .ok (.jp 0x234) ∧
  decode 0x332A = .ok (.seImm 3 0x2A) ∧ decode 0x6005 = .ok (.ldImm 0 5) ∧
  decode 0x8014 = .ok (.addReg 0 1) ∧ decode 0xD012 = .ok (.drw 0 1 2) ∧
  decode 0xE29E = .ok (.skp 2) ∧ decode 0xF265 = .ok (.loadRegs 2) ∧
  decode 0xF066 = .error (.invalidInstruction 0xF066)

/-! ### The instruction cycle (10_state.md R24, 60_exceptions.md R186 to R191) -/

/-- A step runs the decoded instruction: in a running state whose two bytes at PC, the first the more
significant, decode to `i`, the step is `exec i` on the state with PC advanced by 2 (modulo 65536);
where that raises, all of it is undone, the advance of PC too, and only FAULT is latched. A bare
`execute` of a word that decodes to `i` is `exec i` of the state itself: nothing is added to PC (R16,
R66). -/
def Obligations.StepRunsTheDecodedInstruction : Prop :=
  (∀ (s : State) (i : Instr), s.Running → s.pc.toNat + 1 < 4096 →
    decode (s.mem.read s.pc.toNat ++ s.mem.read (s.pc.toNat + 1)) = .ok i →
    ∃ t, exec i { s with pc := s.pc + 2 } = .next t ∧
      (t.Running → step s = .next t) ∧
      (∀ e, t.fault = some e → ∃ u, step s = .next u ∧ HaltedBy e s u)) ∧
  ∀ (s : State) (w : Word) (i : Instr), s.Running → decode w = .ok i → execute w s = exec i s

/-- A fetch outside Memory: OutOfBounds(PC) for PC at 4096 or above, OutOfBounds(4096) for PC = 4095
(no wrap), before anything is decoded, and nothing changes but FAULT (D13). -/
def Obligations.FetchOutsideMemoryHalts : Prop :=
  ∀ s : State, s.Running →
    (4096 ≤ s.pc.toNat → ∃ t, step s = .next t ∧ HaltedBy (.outOfBounds s.pc.toNat) s t) ∧
    (s.pc.toNat = 4095 → ∃ t, step s = .next t ∧ HaltedBy (.outOfBounds 4096) s t)

/-- A fetched word that is no instruction: InvalidInstruction(w), and nothing changes but FAULT; the
same under bare `execute` (D13). -/
def Obligations.InvalidWordHalts : Prop :=
  ∀ (s : State) (w : Word), s.Running → decode w = .error (.invalidInstruction w) →
    (∃ t, execute w s = .next t ∧ HaltedBy (.invalidInstruction w) s t) ∧
    (s.fetch = .ok w → ∃ t, step s = .next t ∧ HaltedBy (.invalidInstruction w) s t)

/-- A halted engine refuses step, execute and tick, and reports the latched record (D13). Of the host's
transactions it refuses these, `load` and every mutator, and the state stays as it was; that `load` and
the mutators are among them is the model's choice (log 8). -/
def Obligations.HaltedEngineRefuses : Prop :=
  ∀ (s : State) (e : ErrorRecord), s.fault = some e →
    step s = .fault (.halted e) ∧ (∀ w, execute w s = .fault (.halted e)) ∧
    tick s = .fault (.halted e) ∧
    ∀ (bytes : List Byte) (a k : Nat) (b : Byte) (w : Word) (op : HostOp),
      op ∈ [.step, .execute w, .tick, .load bytes, .setByte a b, .setV k b, .setI w, .setDt b, .setSt b,
        .setPc w, .push w, .pop, .advancePc, .addToGeneral k b] →
      transact s op = (s, .halted e)

/-- Every error of a step is precise: if a step ends with FAULT latched, nothing else has changed; and
a step that answers began in a running state (D13). -/
def Obligations.ErrorsArePrecise : Prop :=
  ∀ s t : State, step s = .next t →
    s.Running ∧ ∀ e, t.fault = some e → t = { s with fault := some e }

/-- Every step keeps the invariant: Memory in canonical form inside 0..4095, and a latched record that
the frozen state bears out (a stack overflow on a full stack, an invalid word that is invalid, ..). -/
def Obligations.StepKeepsInv : Prop :=
  ∀ s t : State, s.Inv → step s = .next t → t.Inv

/-- The state after reset meets the invariant and is running. -/
def Obligations.ResetMeetsInv : Prop := State.reset.Inv ∧ State.reset.Running

/-- Every transaction of the host keeps the invariant, and so does every sequence of them. -/
def Obligations.HostKeepsInv : Prop :=
  (∀ (s : State) (op : HostOp), s.Inv → (transact s op).1.Inv) ∧
  ∀ (s : State) (ops : List HostOp), s.Inv → (transactAll s ops).Inv

/-- A finished run stays finished: at a jump to itself every further step leaves ALL the state
unchanged (70_reset_and_hazards.md R225, D25). -/
def Obligations.FinishedRunStays : Prop :=
  ∀ s : State, s.Finished → step s = .next s

/-! ### Control transfer (40_flow.md) -/

/-- `JP nnn` (R81): encoding, target, frame; a jump to 4095 makes the next fetch fail at byte 4096; a
jump to its own address is an endless loop. -/
def Obligations.JumpSetsPc : Prop :=
  EncodedAs 0xF000 0x1000 (fun f => .jp f.nnn) ∧
  ∀ (nnn : Imm12) (s : State), ∃ t, exec (.jp nnn) s = .next t ∧
    t.pc.toNat = nnn.toNat ∧ SameBut [.pc] s t ∧
    (nnn.toNat = 4095 → t.fetch = .error (.outOfBounds 4096)) ∧
    (s.Running → s.pc.toNat = nnn.toNat → s.fetch = .ok (encode (.jp nnn)) →
      ∃ u, step s = .next u ∧ u.pc = s.pc)

/-- `JP V0, nnn` (R87): encoding, `nnn + V[0]` without a mask, frame; a target of 4095 or more makes the
next fetch fail. -/
def Obligations.JumpWithOffsetAddsV0 : Prop :=
  EncodedAs 0xF000 0xB000 (fun f => .jpV0 f.nnn) ∧
  ∀ (nnn : Imm12) (s : State), ∃ t, exec (.jpV0 nnn) s = .next t ∧
    t.pc.toNat = nnn.toNat + (s.reg 0).toNat ∧ SameBut [.pc] s t ∧
    (4095 ≤ t.pc.toNat → t.fetch = .error (.outOfBounds (max t.pc.toNat 4096)))

/-- `CALL nnn` pushes its target and does not jump (D5); on a full stack StackOverflow(nnn), and nothing
changes but FAULT (D12, D13). -/
def Obligations.CallPushesItsTarget : Prop :=
  ∀ (nnn : Imm12) (s : State),
    (∀ h : s.sp.val < 16, ∃ t, exec (.call nnn) s = .next t ∧
      t.sp.val = s.sp.val + 1 ∧ (t.stack[s.sp.val]'h).toNat = nnn.toNat ∧ StackBut s.sp.val s t ∧
      SameBut [.stack] s t) ∧
    (s.sp.val = 16 → s.Running → ∃ (t : State) (a : Word), exec (.call nnn) s = .next t ∧
      a.toNat = nnn.toNat ∧ HaltedBy (.stackOverflow a) s t)

/-- `RET` pops into PC, all 16 bits, and the entry keeps its value; on an empty stack StackUnderflow,
and nothing changes but FAULT (D12, D13). -/
def Obligations.ReturnPopsIntoPc : Prop :=
  ∀ s : State,
    (∀ h : 0 < s.sp.val, ∃ t, exec .ret s = .next t ∧
      t.pc = s.stack[s.sp.val - 1]'(by omega) ∧ t.sp.val + 1 = s.sp.val ∧ t.stack = s.stack ∧
      SameBut [.pc, .stack] s t) ∧
    (s.sp.val = 0 → s.Running → ∃ t, exec .ret s = .next t ∧ HaltedBy .stackUnderflow s t)

/-- The four register skips add exactly 2 extra (modulo 65536, D10) when their condition holds and 0
extra otherwise, and change nothing else (R83 to R86, R88). -/
def Obligations.SkipsAddTwoOrNothing : Prop :=
  ∀ (x y : Nibble) (kk : Byte) (s : State),
    let skips (c : Prop) (t : State) : Prop :=
      (c → t.pc.toNat = (s.pc.toNat + 2) % 65536) ∧ (¬ c → t.pc = s.pc) ∧ SameBut [.pc] s t
    (∃ t, exec (.seImm x kk) s = .next t ∧ skips (s.reg x = kk) t) ∧
    (∃ t, exec (.sneImm x kk) s = .next t ∧ skips (s.reg x ≠ kk) t) ∧
    (∃ t, exec (.seReg x y) s = .next t ∧ skips (s.reg x = s.reg y) t) ∧
    (∃ t, exec (.sneReg x y) s = .next t ∧ skips (s.reg x ≠ s.reg y) t)

/-! ### Register-immediate (41_immediate.md) -/

/-- `LD Vx, kk` (R100): encoding, the round trip for every register (VF included) and value, frame. -/
def Obligations.LoadImmediateRoundTrips : Prop :=
  EncodedAs 0xF000 0x6000 (fun f => .ldImm f.x f.kk) ∧
  ∀ (x : Nibble) (kk : Byte) (s : State), ∃ t, exec (.ldImm x kk) s = .next t ∧
    t.reg x = kk ∧ RegsBut x s t ∧ SameBut [.regs] s t

/-- `ADD Vx, kk` wraps modulo 256 (D9) and writes no flag. -/
def Obligations.AddImmediateWraps : Prop :=
  ∀ (x : Nibble) (kk : Byte) (s : State), ∃ t, exec (.addImm x kk) s = .next t ∧
    (t.reg x).toNat = ((s.reg x).toNat + kk.toNat) % 256 ∧ RegsBut x s t ∧ SameBut [.regs] s t

/-- `RND Vx, kk`: the AND of `kk` and one fresh byte, whatever the byte is (the free value of log 3): no
bit outside `kk` is set, one byte is drawn, and nothing else changes (R102, R203). -/
def Obligations.RandomIsMasked : Prop :=
  ∀ (x : Nibble) (kk : Byte) (s : State),
    (∃ t, exec (.rnd x kk) s = .next t ∧ t.reg x = kk &&& Config.randByte s.randDraws ∧
      t.randDraws = s.randDraws + 1 ∧ (∀ k, kk.getLsbD k = false → (t.reg x).getLsbD k = false) ∧
      RegsBut x s t ∧ SameBut [.regs, .draws] s t) ∧
    ∀ r : Byte, (rndWith r x kk s).reg x = kk &&& r ∧ RegsBut x s (rndWith r x kk s) ∧
      SameBut [.regs] s (rndWith r x kk s)

/-! ### Register-register (42_alu.md) -/

/-- `LD Vx, Vy` (R111): encoding, copy, frame. -/
def Obligations.CopyRegister : Prop :=
  EncodedAs 0xF00F 0x8000 (fun f => .ldReg f.x f.y) ∧
  ∀ (x y : Nibble) (s : State), ∃ t, exec (.ldReg x y) s = .next t ∧
    t.reg x = s.reg y ∧ RegsBut x s t ∧ SameBut [.regs] s t

/-- `OR`, `AND`, `XOR` (R112 to R114): encodings, the result bit by bit, no other register (VF among
them) and nothing else changes. -/
def Obligations.LogicIsBitwise : Prop :=
  (EncodedAs 0xF00F 0x8001 (fun f => .orReg f.x f.y) ∧
   EncodedAs 0xF00F 0x8002 (fun f => .andReg f.x f.y) ∧
   EncodedAs 0xF00F 0x8003 (fun f => .xorReg f.x f.y)) ∧
  ∀ (x y : Nibble) (s : State),
    let bitwise (op : Bool → Bool → Bool) (t : State) : Prop :=
      (∀ k, k < 8 → (t.reg x).getLsbD k = op ((s.reg x).getLsbD k) ((s.reg y).getLsbD k)) ∧
      RegsBut x s t ∧ SameBut [.regs] s t
    (∃ t, exec (.orReg x y) s = .next t ∧ bitwise or t) ∧
    (∃ t, exec (.andReg x y) s = .next t ∧ bitwise and t) ∧
    (∃ t, exec (.xorReg x y) s = .next t ∧ bitwise xor t)

/-- `ADD Vx, Vy`: the sum modulo 256, VF = 1 exactly when the sum exceeds 255; where x is VF the result
is what VF holds (D8). Nothing else changes. -/
def Obligations.AddSetsCarry : Prop :=
  ∀ (x y : Nibble) (s : State),
    let sum := (s.reg x).toNat + (s.reg y).toNat
    ∃ t, exec (.addReg x y) s = .next t ∧ (t.reg x).toNat = sum % 256 ∧
      (x ≠ 15 → t.reg 15 = if 255 < sum then 1 else 0) ∧
      (∀ z, z ≠ x → z ≠ 15 → t.reg z = s.reg z) ∧ SameBut [.regs] s t

/-- `SUB Vx, Vy` and `SUBN Vx, Vy`: the difference modulo 256, VF = 0 exactly on a borrow; where x is VF
the result is what VF holds (D8). They never raise. Nothing else changes. -/
def Obligations.SubtractSetsNoBorrow : Prop :=
  ∀ (x y : Nibble) (s : State),
    let difference (a b : Nat) (t : State) : Prop :=
      (t.reg x).toNat = (a + 256 - b) % 256 ∧
      (x ≠ 15 → t.reg 15 = if a < b then 0 else 1) ∧
      (∀ z, z ≠ x → z ≠ 15 → t.reg z = s.reg z) ∧ SameBut [.regs] s t
    (∃ t, exec (.sub x y) s = .next t ∧ difference (s.reg x).toNat (s.reg y).toNat t) ∧
    (∃ t, exec (.subn x y) s = .next t ∧ difference (s.reg y).toNat (s.reg x).toNat t)

/-- `SHR Vx` and `SHL Vx` shift V[x] by one, whatever y is; VF is the bit shifted out by SHR (0 or 1)
and the raw 0x00 or 0x80 by SHL (D6); where x is VF the result is what VF holds (D8). -/
def Obligations.ShiftsSetTheBitShiftedOut : Prop :=
  ∀ (x y : Nibble) (s : State),
    let a := (s.reg x).toNat
    let shifted (result flag : Nat) (t : State) : Prop :=
      (t.reg x).toNat = result ∧ (x ≠ 15 → (t.reg 15).toNat = flag) ∧
      (∀ z, z ≠ x → z ≠ 15 → t.reg z = s.reg z) ∧ SameBut [.regs] s t
    (∃ t, exec (.shr x y) s = .next t ∧ shifted (a / 2) (a % 2) t) ∧
    (∃ t, exec (.shl x y) s = .next t ∧ shifted (2 * a % 256) (if 128 ≤ a then 128 else 0) t)

/-! ### Index register and memory (43_index_memory.md) -/

/-- `LD I, nnn` (R130): encoding, the value 0..4095, frame. -/
def Obligations.LoadIndexSetsI : Prop :=
  EncodedAs 0xF000 0xA000 (fun f => .ldI f.nnn) ∧
  ∀ (nnn : Imm12) (s : State), ∃ t, exec (.ldI nnn) s = .next t ∧
    t.i.toNat = nnn.toNat ∧ SameBut [.index] s t

/-- `ADD I, Vx` wraps modulo 65536 (D10) and not modulo 4096, and writes no flag. -/
def Obligations.AddIndexWrapsAtSixteenBits : Prop :=
  ∀ (x : Nibble) (s : State), ∃ t, exec (.addI x) s = .next t ∧
    t.i.toNat = (s.i.toNat + (s.reg x).toNat) % 65536 ∧ SameBut [.index] s t

/-- `LD F, Vx` points I at five times the low nibble of V[x], 0 to 75 (D17). -/
def Obligations.GlyphIsFiveTimesTheDigit : Prop :=
  ∀ (x : Nibble) (s : State), ∃ t, exec (.ldF x) s = .next t ∧
    t.i.toNat = 5 * ((s.reg x).toNat % 16) ∧ SameBut [.index] s t

/-- The BCD converter (R134): three digits, each a whole byte, hundreds 0..2, tens and ones 0..9, that
make up the value. -/
def Obligations.BcdDigitsMakeUpTheValue : Prop :=
  ∀ v : Byte, ∃ h t o : Byte, bcd v = [h, t, o] ∧
    h.toNat = v.toNat / 100 ∧ t.toNat = v.toNat / 10 % 10 ∧ o.toNat = v.toNat % 10 ∧
    h.toNat ≤ 2 ∧ t.toNat ≤ 9 ∧ o.toNat ≤ 9 ∧
    v.toNat = 100 * h.toNat + 10 * t.toNat + o.toNat

/-- `LD B, Vx` with its three bytes inside Memory: hundreds, tens and ones at I, I + 1, I + 2, every
other byte of Memory and all else unchanged (R136). -/
def Obligations.StoreBcdWritesThreeDigits : Prop :=
  ∀ (x : Nibble) (s : State), s.i.toNat + 2 < 4096 →
    ∃ t, exec (.ldB x) s = .next t ∧
      (t.mem.read s.i.toNat).toNat = (s.reg x).toNat / 100 ∧
      (t.mem.read (s.i.toNat + 1)).toNat = (s.reg x).toNat / 10 % 10 ∧
      (t.mem.read (s.i.toNat + 2)).toNat = (s.reg x).toNat % 10 ∧
      MemBut s.i.toNat 3 s t ∧ SameBut [.mem] s t

/-- `LD [I], Vx` with its bytes inside Memory: V[0] .. V[x] at I .. I + x, I advanced by x + 1 (modulo
65536, D10), every other byte of Memory and all else unchanged (R137). -/
def Obligations.StoreRegistersWritesTheBlock : Prop :=
  ∀ (x : Nibble) (s : State), s.i.toNat + x.toNat < 4096 →
    ∃ t, exec (.storeRegs x) s = .next t ∧
      (∀ y : Nibble, y ≤ x → t.mem.read (s.i.toNat + y.toNat) = s.reg y) ∧
      t.i.toNat = (s.i.toNat + x.toNat + 1) % 65536 ∧
      MemBut s.i.toNat (x.toNat + 1) s t ∧ SameBut [.mem, .index] s t

/-- `LD Vx, [I]` with its bytes inside Memory: V[0] .. V[x] from I .. I + x, the other registers, I and
all else unchanged (R138, D7). -/
def Obligations.LoadRegistersReadsTheBlock : Prop :=
  ∀ (x : Nibble) (s : State), s.i.toNat + x.toNat < 4096 →
    ∃ t, exec (.loadRegs x) s = .next t ∧
      (∀ y : Nibble, y ≤ x → t.reg y = s.mem.read (s.i.toNat + y.toNat)) ∧
      (∀ y : Nibble, x < y → t.reg y = s.reg y) ∧ SameBut [.regs] s t

/-- A block stored and loaded again from the same I comes back whole, whatever the registers held in
between (43_index_memory.md R137, R138). -/
def Obligations.StoredBlockLoadsBack : Prop :=
  ∀ (x : Nibble) (s t u : State), s.i.toNat + x.toNat < 4096 →
    exec (.storeRegs x) s = .next t → u.mem = t.mem → u.i = s.i →
    ∃ r, exec (.loadRegs x) u = .next r ∧ ∀ y : Nibble, y ≤ x → r.reg y = s.reg y

/-- The memory instructions whose highest byte lies at 4096 or above raise OutOfBounds(max(I, 4096)) and
nothing changes but FAULT, no part of the block among it (R133, R181, D11, D13). -/
def Obligations.AccessOutsideMemoryHalts : Prop :=
  ∀ (x y n : Nibble) (s : State), s.Running →
    let halts (i : Instr) : Prop :=
      ∃ t, exec i s = .next t ∧ HaltedBy (.outOfBounds (max s.i.toNat 4096)) s t
    (4096 ≤ s.i.toNat + 2 → halts (.ldB x)) ∧
    (4096 ≤ s.i.toNat + x.toNat → halts (.storeRegs x) ∧ halts (.loadRegs x)) ∧
    (n ≠ 0 → 4096 ≤ s.i.toNat + n.toNat - 1 → halts (.drw x y n))

/-! ### Display (44_display.md) -/

/-- `CLS` (R151): encoding, with 0x0000 among its words; all 2048 pixels off, whatever was on, and
nothing else (VF among it) changes. -/
def Obligations.ClearSwitchesAllOff : Prop :=
  EncodedAs 0xF00F 0x0000 (fun _ => .cls) ∧
  ∀ s : State, ∃ t, exec .cls s = .next t ∧
    (∀ j, j < 2048 → t.pixel j = false) ∧ SameBut [.display] s t

/-- `DRW Vx, Vy, n` with its sprite inside Memory (or n = 0): a pixel changes exactly when a set bit of
the sprite falls on it, with wraparound of every pixel (D14); VF is 1 exactly when one of those was on;
no other register and nothing else changes (R152, R153). -/
def Obligations.DrawXorsTheSprite : Prop :=
  ∀ (x y n : Nibble) (s : State), n = 0 ∨ s.i.toNat + n.toNat ≤ 4096 →
    ∃ t, exec (.drw x y n) s = .next t ∧
      (∀ col row, col < 64 → row < 32 →
        (SpriteCovers s x y n col row → t.pixel (row * 64 + col) = !s.pixel (row * 64 + col)) ∧
        (¬ SpriteCovers s x y n col row → t.pixel (row * 64 + col) = s.pixel (row * 64 + col))) ∧
      ((∃ col row, col < 64 ∧ row < 32 ∧ SpriteCovers s x y n col row ∧
          s.pixel (row * 64 + col) = true) → t.reg 15 = 1) ∧
      ((∀ col row, col < 64 → row < 32 → SpriteCovers s x y n col row →
          s.pixel (row * 64 + col) = false) → t.reg 15 = 0) ∧
      RegsBut 15 s t ∧ SameBut [.regs, .display] s t

/-- Drawing a sprite twice at the same place restores the display (R152; position registers other than
VF, since VF is written by the first draw; the wrap is D14). The second draw sets VF to 1 exactly when
some pixel under a set bit of the sprite was off before the first draw, the pixels the first draw
switched on (log 15: R152's closing remark leaves out the case where all of them were on). -/
def Obligations.DrawTwiceRestores : Prop :=
  ∀ (x y n : Nibble) (s t : State), x ≠ 15 → y ≠ 15 → n = 0 ∨ s.i.toNat + n.toNat ≤ 4096 →
    exec (.drw x y n) s = .next t →
    ∃ u, exec (.drw x y n) t = .next u ∧ (∀ j, j < 2048 → u.pixel j = s.pixel j) ∧
      ((∃ col row, col < 64 ∧ row < 32 ∧ SpriteCovers s x y n col row ∧
          s.pixel (row * 64 + col) = false) → u.reg 15 = 1) ∧
      ((∀ col row, col < 64 → row < 32 → SpriteCovers s x y n col row →
          s.pixel (row * 64 + col) = true) → u.reg 15 = 0)

/-! ### Keypad and timers (45_timer_keypad.md) -/

/-- `SKP Vx` and `SKNP Vx`: one sample of KEYS (the free value of log 2), 2 extra exactly when the key
numbered by the low nibble of V[x] is down, or up (D15); nothing else changes. -/
def Obligations.KeySkipsTestOneKey : Prop :=
  ∀ (x : Nibble) (s : State),
    let down (keys : Word) : Prop := keys.getLsbD ((s.reg x).toNat % 16) = true
    let skips (c : Prop) (t : State) : Prop :=
      (c → t.pc.toNat = (s.pc.toNat + 2) % 65536) ∧ (¬ c → t.pc = s.pc)
    (∃ t, exec (.skp x) s = .next t ∧ skips (down (Config.keysInput s.keySamples)) t ∧
      t.keySamples = s.keySamples + 1 ∧ SameBut [.pc, .samples] s t) ∧
    (∃ t, exec (.sknp x) s = .next t ∧ skips (¬ down (Config.keysInput s.keySamples)) t ∧
      t.keySamples = s.keySamples + 1 ∧ SameBut [.pc, .samples] s t) ∧
    ∀ keys : Word, (skips (down keys) (skpWith keys x s) ∧ SameBut [.pc] s (skpWith keys x s)) ∧
      (skips (¬ down keys) (sknpWith keys x s) ∧ SameBut [.pc] s (sknpWith keys x s))

/-- `LD Vx, K`: one sample of KEYS (the free value of log 2); with no key down only PC moves, back by 2
modulo 65536; else V[x] is the lowest-numbered key down and PC stays (D16). -/
def Obligations.KeyWaitTakesTheLowestKey : Prop :=
  ∀ (x : Nibble) (s : State),
    let waits (keys : Word) (t : State) : Prop :=
      (keys = 0 → t.pc.toNat = (s.pc.toNat + 65534) % 65536 ∧ ∀ y, t.reg y = s.reg y) ∧
      (keys ≠ 0 → t.pc = s.pc ∧ RegsBut x s t ∧ (t.reg x).toNat < 16 ∧
        keys.getLsbD (t.reg x).toNat = true ∧
        ∀ k, k < (t.reg x).toNat → keys.getLsbD k = false)
    (∃ t, exec (.ldVxK x) s = .next t ∧ waits (Config.keysInput s.keySamples) t ∧
      t.keySamples = s.keySamples + 1 ∧ SameBut [.regs, .pc, .samples] s t) ∧
    ∀ keys : Word, waits keys (waitKeyWith keys x s) ∧ SameBut [.regs, .pc] s (waitKeyWith keys x s)

/-- The timer transfers (R163, R165, and R166's transfer): encodings, values, frames; the first decrement
of a DT that was written comes with the next tick, and a DT of 0 stays 0. -/
def Obligations.TimerTransfers : Prop :=
  (EncodedAs 0xF0FF 0xF007 (fun f => .ldVxDt f.x) ∧ EncodedAs 0xF0FF 0xF015 (fun f => .ldDtVx f.x) ∧
   EncodedAs 0xF0FF 0xF018 (fun f => .ldStVx f.x)) ∧
  ∀ (x : Nibble) (s : State),
    (∃ t, exec (.ldVxDt x) s = .next t ∧ t.reg x = s.dt ∧ RegsBut x s t ∧ SameBut [.regs] s t) ∧
    (∃ t, exec (.ldDtVx x) s = .next t ∧ t.dt = s.reg x ∧ SameBut [.dt] s t ∧
      (s.Running → ∃ u, tick t = .next u ∧ u.dt.toNat = (s.reg x).toNat - 1)) ∧
    (∃ t, exec (.ldStVx x) s = .next t ∧ t.st = s.reg x ∧ SameBut [.st] s t)

/-! ### Rules of the whole machine -/

/-- The read/write table, its write columns: an instruction that ends with FAULT as it was changes no
part its row does not list; one that does not has changed FAULT alone (10_state.md R26; D13). -/
def Obligations.InstructionsWriteOnlyTheirRow : Prop :=
  ∀ (i : Instr) (s t : State), s.Running → exec i s = .next t →
    (t.Running ∧ SameBut (writes i) s t) ∨ (∃ e, HaltedBy e s t)

/-- Memory (10_state.md R29): the cells 0..4095 and no others, zero after reset, and changed by the two
storing instructions and by the host's load, set_byte and reset alone. -/
def Obligations.MemoryIsWrittenOnlyByStores : Prop :=
  (∀ (s : State) (a : Nat), (∃ b, s.memRead a = .ok b) ↔ a < 4096) ∧
  (∀ a, a < 4096 → State.reset.memRead a = .ok 0) ∧
  (∀ (i : Instr) (s t : State), exec i s = .next t → (∀ x, i ≠ .ldB x) → (∀ x, i ≠ .storeRegs x) →
    ∀ a, t.mem.read a = s.mem.read a) ∧
  (∀ (s : State) (op : HostOp), op ≠ .reset → (∀ bs, op ≠ .load bs) → (∀ a b, op ≠ .setByte a b) →
    op ≠ .step → (∀ w, op ≠ .execute w) → (transact s op).1.mem = s.mem)

/-- The call stack (10_state.md R18): reached through push and pop alone, by CALL and RET. Every other
instruction, MemRead, MemWrite, the fetch, and the host's byte accesses and load do the same whatever the
stack holds, and leave it as it is: no memory address reaches it. -/
def Obligations.StackIsReachedOnlyByPushAndPop : Prop :=
  (∀ (i : Instr) (s t : State), exec i s = .next t → i ≠ .ret → (∀ nnn, i ≠ .call nnn) →
    t.stack = s.stack ∧ t.sp = s.sp) ∧
  (∀ (i : Instr) (s t : State) (stk : Vector Word 16) (sp : Fin 17), exec i s = .next t → i ≠ .ret →
    (∀ nnn, i ≠ .call nnn) →
    exec i { s with stack := stk, sp := sp } = .next { t with stack := stk, sp := sp }) ∧
  (∀ (nnn : Imm12) (s t : State), exec (.call nnn) s = .next t → t.Running →
    ∃ a, s.push a = .ok t) ∧
  (∀ s t : State, exec .ret s = .next t → t.Running →
    ∃ a u, s.pop = .ok (a, u) ∧ t = { u with pc := a }) ∧
  (∀ (s : State) (stk : Vector Word 16) (sp : Fin 17),
    let other (t : State) : State := { t with stack := stk, sp := sp }
    (∀ a, (other s).memRead a = s.memRead a) ∧ (other s).fetch = s.fetch ∧
    (∀ a b, (other s).memWrite a b = (s.memWrite a b).map other) ∧
    ∀ (a : Nat) (b : Byte) (bs : List Byte) (op : HostOp), op ∈ [.getByte a, .setByte a b, .load bs] →
      transact (other s) op = (other (transact s op).1, (transact s op).2) ∧
      (transact s op).1.stack = s.stack ∧ (transact s op).1.sp = s.sp)

/-- `LD ST, Vx` (45_timer_keypad.md R166): encoding, value, frame; and no instruction reads ST back: two
states that differ in ST alone run every instruction alike. -/
def Obligations.SoundTimerIsNeverRead : Prop :=
  EncodedAs 0xF0FF 0xF018 (fun f => .ldStVx f.x) ∧
  (∀ (x : Nibble) (s : State), ∃ t, exec (.ldStVx x) s = .next t ∧ t.st = s.reg x ∧
    SameBut [.st] s t) ∧
  ∀ (i : Instr) (s t : State) (b : Byte), exec i s = .next t →
    ∃ u, exec i { s with st := b } = .next u ∧ SameBut [.st] t u ∧
      (u.st = t.st ∨ (t.st = s.st ∧ u.st = b))

/-- VF is written by the five flag-setting instructions and DRW, and else only as a named destination:
V[x] with x = 15, or the block of `LD Vx, [I]` with x = 15 (10_state.md R11). -/
def Obligations.FlagIsWrittenOnlyBySix : Prop :=
  ∀ (i : Instr) (s t : State), exec i s = .next t → t.reg 15 ≠ s.reg 15 →
    (∃ x y, i = .addReg x y ∨ i = .sub x y ∨ i = .shr x y ∨ i = .subn x y ∨ i = .shl x y) ∨
    (∃ x y n, i = .drw x y n) ∨
    (∃ y kk, i = .ldImm 15 kk ∨ i = .addImm 15 kk ∨ i = .rnd 15 kk ∨ i = .ldReg 15 y ∨
      i = .orReg 15 y ∨ i = .andReg 15 y ∨ i = .xorReg 15 y) ∨
    i = .ldVxDt 15 ∨ i = .ldVxK 15 ∨ i = .loadRegs 15

/-! ### Memory, reset and the host's transactions -/

/-- MemRead and MemWrite (20_memory.md R42, R43): OutOfBounds(a) at 4096 and above; else the byte, and a
write is read back from its address and changes no other byte and nothing else. -/
def Obligations.MemReadAndMemWrite : Prop :=
  ∀ (s : State) (a : Nat) (b : Byte),
    (4096 ≤ a → s.memRead a = .error (.outOfBounds a) ∧ s.memWrite a b = .error (.outOfBounds a)) ∧
    (a < 4096 → s.memRead a = .ok (s.mem.read a) ∧
      ∃ t, s.memWrite a b = .ok t ∧ t.memRead a = .ok b ∧ MemBut a 1 s t ∧ SameBut [.mem] s t)

/-- Fetch is big-endian and sees the latest store: a word written at PC, high byte first, is the word
the next step fetches (20_memory.md R49, R56; D2, D24). -/
def Obligations.FetchSeesTheStoredWord : Prop :=
  ∀ (s t u : State) (hi lo : Byte), s.pc.toNat + 1 < 4096 →
    s.memWrite s.pc.toNat hi = .ok t → t.memWrite (s.pc.toNat + 1) lo = .ok u →
    ∃ w, u.fetch = .ok w ∧ w.toNat = 256 * hi.toNat + lo.toNat

/-- Reset: every register, stack entry, byte of Memory and pixel is 0 and FAULT is empty (10_state.md
R27, 70 R220; PC = 0 by D4, FAULT by D13); the host's reset is accepted in every state, halted or not,
and leaves that state (but for the model's own counters of inputs, log 4). -/
def Obligations.ResetLeavesZero : Prop :=
  ∀ s : State,
    let t := (transact s .reset).1
    (transact s .reset).2 = .done ∧ SameBut [.draws, .samples] State.reset t ∧
    (∀ y, t.reg y = 0) ∧ t.i = 0 ∧ t.pc = 0 ∧ t.dt = 0 ∧ t.st = 0 ∧ t.sp = 0 ∧
    (∀ k : Fin 16, t.stack[k.val] = 0) ∧ (∀ a, t.mem.read a = 0) ∧
    (∀ j, j < 2048 → t.pixel j = false) ∧ t.Running

/-- `tick()` in a running state: each timer that is not zero minus 1, zero stays zero, one tick for both,
and nothing else changes (60_exceptions.md R196, D18). -/
def Obligations.TickCountsDown : Prop :=
  ∀ s : State, s.Running → ∃ t, tick s = .next t ∧
    t.dt.toNat = s.dt.toNat - 1 ∧ t.st.toNat = s.st.toNat - 1 ∧ SameBut [.dt, .st] s t

/-- `load(bytes)` in a running state: an image of at most 3584 bytes lands at 512 and nothing else
changes; a longer one is RomTooLarge and no byte is written (20_memory.md R47; D13, D22). -/
def Obligations.LoadCopiesTheImage : Prop :=
  ∀ (s : State) (bytes : List Byte), s.Running →
    (bytes.length ≤ 3584 → ∃ t, transact s (.load bytes) = (t, .done) ∧
      (∀ k, k < bytes.length → t.mem.read (512 + k) = bytes.getD k 0) ∧
      MemBut 512 bytes.length s t ∧ SameBut [.mem] s t) ∧
    (3584 < bytes.length → ∃ t, transact s (.load bytes) = (t, .failed (.romTooLarge bytes.length)) ∧
      HaltedBy (.romTooLarge bytes.length) s t)

/-- The stack, as §8 of the source tests it: a push is accepted exactly below 16 entries, a pop exactly
above 0, and a pop after a push gives the pushed address and the old SP (10_state.md R21, R22; D12). -/
def Obligations.PushThenPopReturns : Prop :=
  ∀ (s : State) (a : Word),
    ((∃ t, s.push a = .ok t) ↔ s.sp.val < 16) ∧ ((∃ t, s.pop = .ok t) ↔ 0 < s.sp.val) ∧
    ∀ t, s.push a = .ok t → ∃ u, t.pop = .ok (a, u) ∧ u.sp = s.sp ∧ SameBut [.stack] s u

/-- The host's register transactions (10_state.md R28). In every state, halted or not, the accessors of
V[k], I, DT, ST and PC answer the register and change nothing. In a running state each mutator writes its
register alone, `advance_pc` adds 2 (D10), `add_to_general` wraps modulo 256 (D9), and `push` and `pop`
are those of the stack; an index of 16 or more, a push on a full stack and a pop of an empty one raise
and change FAULT alone (D12, D13). -/
def Obligations.HostRegisterTransactions : Prop :=
  (∀ s : State,
    (∀ x : Nibble, transact s (.getV x.toNat) = (s, .byte (s.reg x))) ∧
    transact s .getI = (s, .word s.i) ∧ transact s .getDt = (s, .byte s.dt) ∧
    transact s .getSt = (s, .byte s.st) ∧ transact s .getPc = (s, .word s.pc)) ∧
  ∀ (s : State) (k : Nat) (b : Byte) (w : Word), s.Running →
    (16 ≤ k → ∃ t, HaltedBy (.outOfBounds k) s t ∧
      transact s (.getV k) = (t, .failed (.outOfBounds k)) ∧
      transact s (.setV k b) = (t, .failed (.outOfBounds k)) ∧
      transact s (.addToGeneral k b) = (t, .failed (.outOfBounds k))) ∧
    (∀ x : Nibble, x.toNat = k →
      (∃ t, transact s (.setV k b) = (t, .done) ∧ t.reg x = b ∧ RegsBut x s t ∧
        SameBut [.regs] s t) ∧
      (∃ t, transact s (.addToGeneral k b) = (t, .done) ∧
        (t.reg x).toNat = ((s.reg x).toNat + b.toNat) % 256 ∧ RegsBut x s t ∧
        SameBut [.regs] s t)) ∧
    (∃ t, transact s (.setI w) = (t, .done) ∧ t.i = w ∧ SameBut [.index] s t) ∧
    (∃ t, transact s (.setDt b) = (t, .done) ∧ t.dt = b ∧ SameBut [.dt] s t) ∧
    (∃ t, transact s (.setSt b) = (t, .done) ∧ t.st = b ∧ SameBut [.st] s t) ∧
    (∃ t, transact s (.setPc w) = (t, .done) ∧ t.pc = w ∧ SameBut [.pc] s t) ∧
    (∃ t, transact s .advancePc = (t, .done) ∧ t.pc.toNat = (s.pc.toNat + 2) % 65536 ∧
      SameBut [.pc] s t) ∧
    (∀ t, s.push w = .ok t → transact s (.push w) = (t, .done)) ∧
    (∀ a t, s.pop = .ok (a, t) → transact s .pop = (t, .word a)) ∧
    (s.sp.val = 16 → ∃ t, HaltedBy (.stackOverflow w) s t ∧
      transact s (.push w) = (t, .failed (.stackOverflow w))) ∧
    (s.sp.val = 0 → ∃ t, HaltedBy .stackUnderflow s t ∧
      transact s .pop = (t, .failed .stackUnderflow))

/-- `display_read()` answers the 2048 pixels in row-major order and changes nothing, also when halted
(60_exceptions.md R205, R188). -/
def Obligations.DisplayReadIsRowMajor : Prop :=
  ∀ s : State, ∃ ds : List Bool, transact s .displayRead = (s, .pixels ds) ∧ ds.length = 2048 ∧
    ∀ col row, col < 64 → row < 32 → ds[row * 64 + col]? = some (s.display.pixel col row)
end

