-- ==== Sys2Proof/Laws/Decode.lean ====
section
/-! SUPPORT. The laws of the bit fields: the split of a word and its inverse, and the fields of an
instruction with an immediate. -/

namespace Sys2Proof

/-- The bits of the word of four nibbles (30_encoding.md R61). -/
theorem Fields.getLsbD_toWord (f : Fields) (k : Nat) :
    f.toWord.getLsbD k = if k < 8 then (if k < 4 then f.n.getLsbD k else f.y.getLsbD (k - 4))
      else (if k < 12 then f.x.getLsbD (k - 8) else f.h.getLsbD (k - 12)) := by
  have h1 : f.toWord.getLsbD k = _ := BitVec.getLsbD_append (x := f.h ++ f.x) (y := f.y ++ f.n)
  rw [h1, BitVec.getLsbD_append, BitVec.getLsbD_append]
  split <;> split <;> simp_all <;> grind

/-- The split gives back the four nibbles of a word put together (30_encoding.md R61). -/
@[simp] theorem Fields.ofWord_toWord (f : Fields) : Fields.ofWord f.toWord = f := by
  obtain ⟨h, x, y, n⟩ := f
  simp only [Fields.ofWord, Fields.mk.injEq]
  refine ⟨?_, ?_, ?_, ?_⟩ <;> apply BitVec.eq_of_getLsbD_eq <;> intro k hk <;>
    simp only [BitVec.getLsbD_extractLsb', Fields.getLsbD_toWord] <;> grind

/-- Every word is the four nibbles of its split put together. -/
@[simp] theorem Fields.toWord_ofWord (w : Word) : (Fields.ofWord w).toWord = w := by
  apply BitVec.eq_of_getLsbD_eq
  intro k hk
  simp only [Fields.getLsbD_toWord, Fields.ofWord, BitVec.getLsbD_extractLsb']
  grind

/-- The bits of `nnn = x : y : n` (30_encoding.md R61). -/
theorem Fields.getLsbD_nnn (f : Fields) (k : Nat) :
    f.nnn.getLsbD k = if k < 8 then (if k < 4 then f.n.getLsbD k else f.y.getLsbD (k - 4))
      else f.x.getLsbD (k - 8) := by
  have h1 : f.nnn.getLsbD k = _ := BitVec.getLsbD_append (x := f.x) (y := f.y ++ f.n)
  rw [h1, BitVec.getLsbD_append]

/-- The bits of `kk = y : n` (30_encoding.md R61). -/
theorem Fields.getLsbD_kk (f : Fields) (k : Nat) :
    f.kk.getLsbD k = if k < 4 then f.n.getLsbD k else f.y.getLsbD (k - 4) := by
  have h1 : f.kk.getLsbD k = _ := BitVec.getLsbD_append (x := f.y) (y := f.n)
  rw [h1]

/-- The bits of two bytes put together, high byte first (20_memory.md R49). -/
theorem getLsbD_joinBytes (hi lo : Byte) (k : Nat) :
    (joinBytes hi lo).getLsbD k = if k < 8 then lo.getLsbD k else hi.getLsbD (k - 8) := by
  have h1 : (joinBytes hi lo).getLsbD k = _ := BitVec.getLsbD_append (x := hi) (y := lo)
  rw [h1]

@[simp] theorem Fields.nnn_addr (h : Nibble) (nnn : Imm12) : (Fields.addr h nnn).nnn = nnn := by
  apply BitVec.eq_of_getLsbD_eq
  intro k hk
  simp only [Fields.getLsbD_nnn, Fields.addr, BitVec.getLsbD_extractLsb']
  grind

@[simp] theorem Fields.kk_xkk (h x : Nibble) (kk : Byte) : (Fields.xkk h x kk).kk = kk := by
  apply BitVec.eq_of_getLsbD_eq
  intro k hk
  simp only [Fields.getLsbD_kk, Fields.xkk, BitVec.getLsbD_extractLsb']
  grind

/-- The fields of `h : nnn` with the field's own `nnn`. -/
@[simp] theorem Fields.addr_nnn (f : Fields) : Fields.addr f.h f.nnn = f := by
  obtain ⟨h, x, y, n⟩ := f
  simp only [Fields.addr, Fields.mk.injEq, true_and]
  refine ⟨?_, ?_, ?_⟩ <;> apply BitVec.eq_of_getLsbD_eq <;> intro k hk <;>
    simp only [BitVec.getLsbD_extractLsb', Fields.getLsbD_nnn] <;> grind

/-- The fields of `h : x : kk` with the field's own `kk`. -/
@[simp] theorem Fields.xkk_kk (f : Fields) : Fields.xkk f.h f.x f.kk = f := by
  obtain ⟨h, x, y, n⟩ := f
  simp only [Fields.xkk, Fields.mk.injEq, true_and]
  refine ⟨?_, ?_⟩ <;> apply BitVec.eq_of_getLsbD_eq <;> intro k hk <;>
    simp only [BitVec.getLsbD_extractLsb', Fields.getLsbD_kk] <;> grind

@[simp] theorem Fields.h_addr (h : Nibble) (nnn : Imm12) : (Fields.addr h nnn).h = h := rfl
@[simp] theorem Fields.h_xkk (h x : Nibble) (kk : Byte) : (Fields.xkk h x kk).h = h := rfl
@[simp] theorem Fields.x_xkk (h x : Nibble) (kk : Byte) : (Fields.xkk h x kk).x = x := rfl

theorem Fields.selector_eq_kk (f : Fields) : f.selector = f.kk := rfl

/-- The two bytes of a word put together are the word (20_memory.md R49). -/
@[simp] theorem joinBytes_hiByte_loByte (w : Word) : joinBytes (hiByte w) (loByte w) = w := by
  apply BitVec.eq_of_getLsbD_eq
  intro k hk
  simp only [getLsbD_joinBytes, hiByte, loByte, BitVec.getLsbD_extractLsb']
  grind

/-! ### Words, masks and numbers (30_encoding.md R61, R67) -/

/-- The fields of a masked word are the masked fields. -/
theorem Fields.ofWord_and (w m : Word) :
    Fields.ofWord (w &&& m) =
      ⟨(Fields.ofWord w).h &&& (Fields.ofWord m).h, (Fields.ofWord w).x &&& (Fields.ofWord m).x,
       (Fields.ofWord w).y &&& (Fields.ofWord m).y, (Fields.ofWord w).n &&& (Fields.ofWord m).n⟩ := by
  simp only [Fields.ofWord, Fields.mk.injEq]
  refine ⟨?_, ?_, ?_, ?_⟩ <;> apply BitVec.eq_of_getLsbD_eq <;> intro k hk <;> simp [hk]

/-! The fields as numbers: each is the slice of the word at its place. -/

theorem Fields.toNat_h (w : Word) : (Fields.ofWord w).h.toNat = w.toNat / 4096 := by
  have := w.isLt
  simp only [Fields.ofWord, BitVec.extractLsb'_toNat, Nat.shiftRight_eq_div_pow]
  omega

theorem Fields.toNat_x (w : Word) : (Fields.ofWord w).x.toNat = w.toNat / 256 % 16 := by
  simp [Fields.ofWord, BitVec.extractLsb'_toNat, Nat.shiftRight_eq_div_pow]

theorem Fields.toNat_y (w : Word) : (Fields.ofWord w).y.toNat = w.toNat / 16 % 16 := by
  simp [Fields.ofWord, BitVec.extractLsb'_toNat, Nat.shiftRight_eq_div_pow]

theorem Fields.toNat_n (w : Word) : (Fields.ofWord w).n.toNat = w.toNat % 16 := by
  simp [Fields.ofWord, BitVec.extractLsb'_toNat]

/-- `kk = 16 y + n` as a number. -/
theorem Fields.toNat_kk (f : Fields) : f.kk.toNat = 16 * f.y.toNat + f.n.toNat := by
  have h1 : f.kk.toNat = _ := BitVec.toNat_append f.y f.n
  have := f.n.isLt
  rw [h1, ← Nat.shiftLeft_add_eq_or_of_lt this, Nat.shiftLeft_eq]
  omega

/-- `nnn = 256 x + kk` as a number. -/
theorem Fields.toNat_nnn (f : Fields) : f.nnn.toNat = 256 * f.x.toNat + f.kk.toNat := by
  have h1 : f.nnn.toNat = _ := BitVec.toNat_append f.x (f.y ++ f.n)
  have h2 : (f.y ++ f.n).toNat = f.kk.toNat := rfl
  have := f.kk.isLt
  rw [h1, h2, ← Nat.shiftLeft_add_eq_or_of_lt this, Nat.shiftLeft_eq]
  omega

/-- Two bytes put together, as a number (20_memory.md R49). -/
theorem toNat_joinBytes (hi lo : Byte) :
    (joinBytes hi lo).toNat = 256 * hi.toNat + lo.toNat := by
  have h1 : (joinBytes hi lo).toNat = _ := BitVec.toNat_append hi lo
  have := lo.isLt
  rw [h1, ← Nat.shiftLeft_add_eq_or_of_lt this, Nat.shiftLeft_eq]
  omega

/-- Two words with the same fields are the same. -/
theorem Fields.ofWord_inj {v w : Word} (h : Fields.ofWord v = Fields.ofWord w) : v = w := by
  rw [← Fields.toWord_ofWord v, h, Fields.toWord_ofWord]

/-- A word under the mask of a header alone. -/
theorem Fields.mask_header (w c : Word) :
    w &&& 0xF000 = c ↔ Fields.ofWord c = ⟨(Fields.ofWord w).h, 0, 0, 0⟩ := by
  have hm : Fields.ofWord 0xF000 = ⟨0xF, 0, 0, 0⟩ := by decide
  have h1 : Fields.ofWord (w &&& 0xF000) = ⟨(Fields.ofWord w).h, 0, 0, 0⟩ := by
    rw [Fields.ofWord_and, hm]
    rw [Fields.mk.injEq]
    exact ⟨BitVec.and_allOnes, BitVec.and_zero, BitVec.and_zero, BitVec.and_zero⟩
  exact ⟨fun h => by rw [← h, h1], fun h => Fields.ofWord_inj (h1.trans h.symm)⟩

/-- A word under the mask of a header and the low nibble. -/
theorem Fields.mask_header_n (w c : Word) :
    w &&& 0xF00F = c ↔ Fields.ofWord c = ⟨(Fields.ofWord w).h, 0, 0, (Fields.ofWord w).n⟩ := by
  have hm : Fields.ofWord 0xF00F = ⟨0xF, 0, 0, 0xF⟩ := by decide
  have h1 : Fields.ofWord (w &&& 0xF00F) = ⟨(Fields.ofWord w).h, 0, 0, (Fields.ofWord w).n⟩ := by
    rw [Fields.ofWord_and, hm]
    rw [Fields.mk.injEq]
    exact ⟨BitVec.and_allOnes, BitVec.and_zero, BitVec.and_zero, BitVec.and_allOnes⟩
  exact ⟨fun h => by rw [← h, h1], fun h => Fields.ofWord_inj (h1.trans h.symm)⟩

/-- A word under the mask of a header and the low byte. -/
theorem Fields.mask_header_kk (w c : Word) :
    w &&& 0xF0FF = c ↔
      Fields.ofWord c = ⟨(Fields.ofWord w).h, 0, (Fields.ofWord w).y, (Fields.ofWord w).n⟩ := by
  have hm : Fields.ofWord 0xF0FF = ⟨0xF, 0, 0xF, 0xF⟩ := by decide
  have h1 : Fields.ofWord (w &&& 0xF0FF) =
      ⟨(Fields.ofWord w).h, 0, (Fields.ofWord w).y, (Fields.ofWord w).n⟩ := by
    rw [Fields.ofWord_and, hm]
    rw [Fields.mk.injEq]
    exact ⟨BitVec.and_allOnes, BitVec.and_zero, BitVec.and_allOnes, BitVec.and_allOnes⟩
  exact ⟨fun h => by rw [← h, h1], fun h => Fields.ofWord_inj (h1.trans h.symm)⟩

/-- What a word decodes to is what its fields dispatch to. -/
theorem decode_of_dispatch {w : Word} {i : Instr} (h : dispatch (Fields.ofWord w) = some i) :
    decode w = .ok i := by
  simp only [decode, h]

theorem decode_of_dispatch_none {w : Word} (h : dispatch (Fields.ofWord w) = none) :
    decode w = .error (.invalidInstruction w) := by
  simp only [decode, h]

/-- A rejected word is rejected under its own name. -/
theorem decode_error {w : Word} {r : Reject} (h : decode w = .error r) :
    r = .invalidInstruction w := by
  unfold decode at h
  split at h
  · cases h
  · cases h; rfl

end Sys2Proof
end

