-- ==== Sys2Proof/Laws/State.lean ====
section
/-! SUPPORT. The small lemmas of State: one for each field of each update, and what a register read
gives after each update. -/

namespace Sys2Proof.Machine

/-! ### The fixed sizes as numbers (00_scope.md R7) -/

@[simp] theorem memSize_eq : Config.memSize = 4096 := rfl
@[simp] theorem progBase_eq : Config.progBase = 512 := rfl
@[simp] theorem romMax_eq : Config.romMax = 3584 := rfl

variable (s : State)

/-! ### setReg -/

@[simp] theorem State.setReg_v (x : Nibble) (b : Byte) : (s.setReg x b).v = s.v.set x.toNat b x.isLt := rfl
@[simp] theorem State.setReg_i (x : Nibble) (b : Byte) : (s.setReg x b).i = s.i := rfl
@[simp] theorem State.setReg_pc (x : Nibble) (b : Byte) : (s.setReg x b).pc = s.pc := rfl
@[simp] theorem State.setReg_dt (x : Nibble) (b : Byte) : (s.setReg x b).dt = s.dt := rfl
@[simp] theorem State.setReg_st (x : Nibble) (b : Byte) : (s.setReg x b).st = s.st := rfl
@[simp] theorem State.setReg_stack (x : Nibble) (b : Byte) : (s.setReg x b).stack = s.stack := rfl
@[simp] theorem State.setReg_sp (x : Nibble) (b : Byte) : (s.setReg x b).sp = s.sp := rfl
@[simp] theorem State.setReg_mem (x : Nibble) (b : Byte) : (s.setReg x b).mem = s.mem := rfl
@[simp] theorem State.setReg_display (x : Nibble) (b : Byte) : (s.setReg x b).display = s.display := rfl
@[simp] theorem State.setReg_fault (x : Nibble) (b : Byte) : (s.setReg x b).fault = s.fault := rfl
@[simp] theorem State.setReg_randDraws (x : Nibble) (b : Byte) : (s.setReg x b).randDraws = s.randDraws := rfl
@[simp] theorem State.setReg_keySamples (x : Nibble) (b : Byte) : (s.setReg x b).keySamples = s.keySamples := rfl

/-! ### advancePc -/

@[simp] theorem State.advancePc_v : (s.advancePc).v = s.v := rfl
@[simp] theorem State.advancePc_i : (s.advancePc).i = s.i := rfl
@[simp] theorem State.advancePc_pc : (s.advancePc).pc = s.pc + 2 := rfl
@[simp] theorem State.advancePc_dt : (s.advancePc).dt = s.dt := rfl
@[simp] theorem State.advancePc_st : (s.advancePc).st = s.st := rfl
@[simp] theorem State.advancePc_stack : (s.advancePc).stack = s.stack := rfl
@[simp] theorem State.advancePc_sp : (s.advancePc).sp = s.sp := rfl
@[simp] theorem State.advancePc_mem : (s.advancePc).mem = s.mem := rfl
@[simp] theorem State.advancePc_display : (s.advancePc).display = s.display := rfl
@[simp] theorem State.advancePc_fault : (s.advancePc).fault = s.fault := rfl
@[simp] theorem State.advancePc_randDraws : (s.advancePc).randDraws = s.randDraws := rfl
@[simp] theorem State.advancePc_keySamples : (s.advancePc).keySamples = s.keySamples := rfl

/-! ### retreatPc -/

@[simp] theorem State.retreatPc_v : (s.retreatPc).v = s.v := rfl
@[simp] theorem State.retreatPc_i : (s.retreatPc).i = s.i := rfl
@[simp] theorem State.retreatPc_pc : (s.retreatPc).pc = s.pc - 2 := rfl
@[simp] theorem State.retreatPc_dt : (s.retreatPc).dt = s.dt := rfl
@[simp] theorem State.retreatPc_st : (s.retreatPc).st = s.st := rfl
@[simp] theorem State.retreatPc_stack : (s.retreatPc).stack = s.stack := rfl
@[simp] theorem State.retreatPc_sp : (s.retreatPc).sp = s.sp := rfl
@[simp] theorem State.retreatPc_mem : (s.retreatPc).mem = s.mem := rfl
@[simp] theorem State.retreatPc_display : (s.retreatPc).display = s.display := rfl
@[simp] theorem State.retreatPc_fault : (s.retreatPc).fault = s.fault := rfl
@[simp] theorem State.retreatPc_randDraws : (s.retreatPc).randDraws = s.randDraws := rfl
@[simp] theorem State.retreatPc_keySamples : (s.retreatPc).keySamples = s.keySamples := rfl

/-! ### skipIf -/

@[simp] theorem State.skipIf_v (c : Bool) : (s.skipIf c).v = s.v := rfl
@[simp] theorem State.skipIf_i (c : Bool) : (s.skipIf c).i = s.i := rfl
@[simp] theorem State.skipIf_pc (c : Bool) : (s.skipIf c).pc = if c then s.pc + 2 else s.pc := rfl
@[simp] theorem State.skipIf_dt (c : Bool) : (s.skipIf c).dt = s.dt := rfl
@[simp] theorem State.skipIf_st (c : Bool) : (s.skipIf c).st = s.st := rfl
@[simp] theorem State.skipIf_stack (c : Bool) : (s.skipIf c).stack = s.stack := rfl
@[simp] theorem State.skipIf_sp (c : Bool) : (s.skipIf c).sp = s.sp := rfl
@[simp] theorem State.skipIf_mem (c : Bool) : (s.skipIf c).mem = s.mem := rfl
@[simp] theorem State.skipIf_display (c : Bool) : (s.skipIf c).display = s.display := rfl
@[simp] theorem State.skipIf_fault (c : Bool) : (s.skipIf c).fault = s.fault := rfl
@[simp] theorem State.skipIf_randDraws (c : Bool) : (s.skipIf c).randDraws = s.randDraws := rfl
@[simp] theorem State.skipIf_keySamples (c : Bool) : (s.skipIf c).keySamples = s.keySamples := rfl

/-! ### raise -/

@[simp] theorem State.raise_v (e : ErrorRecord) : (s.raise e).v = s.v := rfl
@[simp] theorem State.raise_i (e : ErrorRecord) : (s.raise e).i = s.i := rfl
@[simp] theorem State.raise_pc (e : ErrorRecord) : (s.raise e).pc = s.pc := rfl
@[simp] theorem State.raise_dt (e : ErrorRecord) : (s.raise e).dt = s.dt := rfl
@[simp] theorem State.raise_st (e : ErrorRecord) : (s.raise e).st = s.st := rfl
@[simp] theorem State.raise_stack (e : ErrorRecord) : (s.raise e).stack = s.stack := rfl
@[simp] theorem State.raise_sp (e : ErrorRecord) : (s.raise e).sp = s.sp := rfl
@[simp] theorem State.raise_mem (e : ErrorRecord) : (s.raise e).mem = s.mem := rfl
@[simp] theorem State.raise_display (e : ErrorRecord) : (s.raise e).display = s.display := rfl
@[simp] theorem State.raise_fault (e : ErrorRecord) : (s.raise e).fault = some (s.fault.getD e) := rfl
@[simp] theorem State.raise_randDraws (e : ErrorRecord) : (s.raise e).randDraws = s.randDraws := rfl
@[simp] theorem State.raise_keySamples (e : ErrorRecord) : (s.raise e).keySamples = s.keySamples := rfl

/-! ### drawRand -/

@[simp] theorem State.drawRand_v : (s.drawRand.2).v = s.v := rfl
@[simp] theorem State.drawRand_i : (s.drawRand.2).i = s.i := rfl
@[simp] theorem State.drawRand_pc : (s.drawRand.2).pc = s.pc := rfl
@[simp] theorem State.drawRand_dt : (s.drawRand.2).dt = s.dt := rfl
@[simp] theorem State.drawRand_st : (s.drawRand.2).st = s.st := rfl
@[simp] theorem State.drawRand_stack : (s.drawRand.2).stack = s.stack := rfl
@[simp] theorem State.drawRand_sp : (s.drawRand.2).sp = s.sp := rfl
@[simp] theorem State.drawRand_mem : (s.drawRand.2).mem = s.mem := rfl
@[simp] theorem State.drawRand_display : (s.drawRand.2).display = s.display := rfl
@[simp] theorem State.drawRand_fault : (s.drawRand.2).fault = s.fault := rfl
@[simp] theorem State.drawRand_randDraws : (s.drawRand.2).randDraws = s.randDraws + 1 := rfl
@[simp] theorem State.drawRand_keySamples : (s.drawRand.2).keySamples = s.keySamples := rfl

/-! ### sampleKeys -/

@[simp] theorem State.sampleKeys_v : (s.sampleKeys.2).v = s.v := rfl
@[simp] theorem State.sampleKeys_i : (s.sampleKeys.2).i = s.i := rfl
@[simp] theorem State.sampleKeys_pc : (s.sampleKeys.2).pc = s.pc := rfl
@[simp] theorem State.sampleKeys_dt : (s.sampleKeys.2).dt = s.dt := rfl
@[simp] theorem State.sampleKeys_st : (s.sampleKeys.2).st = s.st := rfl
@[simp] theorem State.sampleKeys_stack : (s.sampleKeys.2).stack = s.stack := rfl
@[simp] theorem State.sampleKeys_sp : (s.sampleKeys.2).sp = s.sp := rfl
@[simp] theorem State.sampleKeys_mem : (s.sampleKeys.2).mem = s.mem := rfl
@[simp] theorem State.sampleKeys_display : (s.sampleKeys.2).display = s.display := rfl
@[simp] theorem State.sampleKeys_fault : (s.sampleKeys.2).fault = s.fault := rfl
@[simp] theorem State.sampleKeys_randDraws : (s.sampleKeys.2).randDraws = s.randDraws := rfl
@[simp] theorem State.sampleKeys_keySamples : (s.sampleKeys.2).keySamples = s.keySamples + 1 := rfl

/-! ### Registers read after an update -/

/-- A register reads the field `v` only. -/
theorem State.reg_congr {s t : State} (h : t.v = s.v) (x : Nibble) : t.reg x = s.reg x := by
  simp only [State.reg, h]

/-- A write to V[x] is read back from V[x] and from no other register (10_state.md R10). -/
@[simp] theorem State.reg_setReg (x y : Nibble) (b : Byte) :
    (s.setReg x b).reg y = if y = x then b else s.reg y := by
  simp only [State.reg, State.setReg, Vector.getElem_set, BitVec.toNat_inj, eq_comm]

@[simp] theorem State.reg_advancePc (y : Nibble) : s.advancePc.reg y = s.reg y := rfl
@[simp] theorem State.reg_retreatPc (y : Nibble) : s.retreatPc.reg y = s.reg y := rfl
@[simp] theorem State.reg_skipIf (c : Bool) (y : Nibble) : (s.skipIf c).reg y = s.reg y := rfl
@[simp] theorem State.reg_raise (e : ErrorRecord) (y : Nibble) : (s.raise e).reg y = s.reg y := rfl
@[simp] theorem State.reg_drawRand (y : Nibble) : s.drawRand.2.reg y = s.reg y := rfl
@[simp] theorem State.reg_sampleKeys (y : Nibble) : s.sampleKeys.2.reg y = s.reg y := rfl

@[simp] theorem State.drawRand_fst : s.drawRand.1 = Config.randByte s.randDraws := rfl
@[simp] theorem State.sampleKeys_fst : s.sampleKeys.1 = Config.keysInput s.keySamples := rfl

/-- The first error taken in a running state is the one latched (60_exceptions.md R188). -/
theorem State.raise_of_running {s : State} (h : s.fault = none) (e : ErrorRecord) :
    s.raise e = { s with fault := some e } := by
  simp [State.raise, h]

/-- A latched record is kept (10_state.md R23). -/
theorem State.raise_of_halted {s : State} {e : ErrorRecord} (h : s.fault = some e) (e' : ErrorRecord) :
    s.raise e' = s := by
  cases s; simp_all [State.raise]

/-! ### The two writes of a flag-setting instruction (42_alu.md R110) -/

/-- The result wins where the destination is VF. -/
@[simp] theorem State.reg_setFlagThenReg (flag : Byte) (x : Nibble) (result : Byte) (y : Nibble) :
    (s.setFlagThenReg flag x result).reg y
      = if y = x then result else if y = vf then flag else s.reg y := by
  simp only [State.setFlagThenReg, State.reg_setReg]

@[simp] theorem State.setFlagThenReg_i (flag : Byte) (x : Nibble) (r : Byte) :
    (s.setFlagThenReg flag x r).i = s.i := rfl
@[simp] theorem State.setFlagThenReg_pc (flag : Byte) (x : Nibble) (r : Byte) :
    (s.setFlagThenReg flag x r).pc = s.pc := rfl
@[simp] theorem State.setFlagThenReg_dt (flag : Byte) (x : Nibble) (r : Byte) :
    (s.setFlagThenReg flag x r).dt = s.dt := rfl
@[simp] theorem State.setFlagThenReg_st (flag : Byte) (x : Nibble) (r : Byte) :
    (s.setFlagThenReg flag x r).st = s.st := rfl
@[simp] theorem State.setFlagThenReg_stack (flag : Byte) (x : Nibble) (r : Byte) :
    (s.setFlagThenReg flag x r).stack = s.stack := rfl
@[simp] theorem State.setFlagThenReg_sp (flag : Byte) (x : Nibble) (r : Byte) :
    (s.setFlagThenReg flag x r).sp = s.sp := rfl
@[simp] theorem State.setFlagThenReg_mem (flag : Byte) (x : Nibble) (r : Byte) :
    (s.setFlagThenReg flag x r).mem = s.mem := rfl
@[simp] theorem State.setFlagThenReg_display (flag : Byte) (x : Nibble) (r : Byte) :
    (s.setFlagThenReg flag x r).display = s.display := rfl
@[simp] theorem State.setFlagThenReg_fault (flag : Byte) (x : Nibble) (r : Byte) :
    (s.setFlagThenReg flag x r).fault = s.fault := rfl
@[simp] theorem State.setFlagThenReg_randDraws (flag : Byte) (x : Nibble) (r : Byte) :
    (s.setFlagThenReg flag x r).randDraws = s.randDraws := rfl
@[simp] theorem State.setFlagThenReg_keySamples (flag : Byte) (x : Nibble) (r : Byte) :
    (s.setFlagThenReg flag x r).keySamples = s.keySamples := rfl

/-! ### A block of registers written (43_index_memory.md R138) -/

@[simp] theorem State.setRegs_i (s : State) (k : Nat) (bs : List Byte) :
    (s.setRegs k bs).i = s.i := by
  induction bs generalizing s k with
  | nil => rfl
  | cons b bs ih => rw [State.setRegs, ih]; rfl

@[simp] theorem State.setRegs_pc (s : State) (k : Nat) (bs : List Byte) :
    (s.setRegs k bs).pc = s.pc := by
  induction bs generalizing s k with
  | nil => rfl
  | cons b bs ih => rw [State.setRegs, ih]; rfl

@[simp] theorem State.setRegs_dt (s : State) (k : Nat) (bs : List Byte) :
    (s.setRegs k bs).dt = s.dt := by
  induction bs generalizing s k with
  | nil => rfl
  | cons b bs ih => rw [State.setRegs, ih]; rfl

@[simp] theorem State.setRegs_st (s : State) (k : Nat) (bs : List Byte) :
    (s.setRegs k bs).st = s.st := by
  induction bs generalizing s k with
  | nil => rfl
  | cons b bs ih => rw [State.setRegs, ih]; rfl

@[simp] theorem State.setRegs_stack (s : State) (k : Nat) (bs : List Byte) :
    (s.setRegs k bs).stack = s.stack := by
  induction bs generalizing s k with
  | nil => rfl
  | cons b bs ih => rw [State.setRegs, ih]; rfl

@[simp] theorem State.setRegs_sp (s : State) (k : Nat) (bs : List Byte) :
    (s.setRegs k bs).sp = s.sp := by
  induction bs generalizing s k with
  | nil => rfl
  | cons b bs ih => rw [State.setRegs, ih]; rfl

@[simp] theorem State.setRegs_mem (s : State) (k : Nat) (bs : List Byte) :
    (s.setRegs k bs).mem = s.mem := by
  induction bs generalizing s k with
  | nil => rfl
  | cons b bs ih => rw [State.setRegs, ih]; rfl

@[simp] theorem State.setRegs_display (s : State) (k : Nat) (bs : List Byte) :
    (s.setRegs k bs).display = s.display := by
  induction bs generalizing s k with
  | nil => rfl
  | cons b bs ih => rw [State.setRegs, ih]; rfl

@[simp] theorem State.setRegs_fault (s : State) (k : Nat) (bs : List Byte) :
    (s.setRegs k bs).fault = s.fault := by
  induction bs generalizing s k with
  | nil => rfl
  | cons b bs ih => rw [State.setRegs, ih]; rfl

@[simp] theorem State.setRegs_randDraws (s : State) (k : Nat) (bs : List Byte) :
    (s.setRegs k bs).randDraws = s.randDraws := by
  induction bs generalizing s k with
  | nil => rfl
  | cons b bs ih => rw [State.setRegs, ih]; rfl

@[simp] theorem State.setRegs_keySamples (s : State) (k : Nat) (bs : List Byte) :
    (s.setRegs k bs).keySamples = s.keySamples := by
  induction bs generalizing s k with
  | nil => rfl
  | cons b bs ih => rw [State.setRegs, ih]; rfl

/-- What a register holds after the bytes `bs` are written from register `k` up. -/
theorem State.reg_setRegs (s : State) (k : Nat) (bs : List Byte) (hk : k + bs.length ≤ 16) (y : Nibble) :
    (s.setRegs k bs).reg y
      = if k ≤ y.toNat ∧ y.toNat < k + bs.length then bs.getD (y.toNat - k) 0 else s.reg y := by
  induction bs generalizing s k with
  | nil => simp [State.setRegs]
  | cons b bs ih =>
    simp only [List.length_cons] at hk ⊢
    rw [State.setRegs, ih _ _ (by omega), State.reg_setReg]
    have hy : (y = BitVec.ofNat 4 k) ↔ y.toNat = k := by
      rw [← BitVec.toNat_inj, BitVec.toNat_ofNat, Nat.mod_eq_of_lt (by omega)]
    simp only [hy]
    by_cases h1 : y.toNat = k
    · simp [h1]
    · by_cases h2 : k + 1 ≤ y.toNat ∧ y.toNat < k + 1 + bs.length
      · have h3 : k ≤ y.toNat ∧ y.toNat < k + (bs.length + 1) := by omega
        rw [if_pos h2, if_pos h3]
        have h4 : y.toNat - k = (y.toNat - (k + 1)) + 1 := by omega
        rw [h4]; simp
      · have h3 : ¬ (k ≤ y.toNat ∧ y.toNat < k + (bs.length + 1)) := by omega
        rw [if_neg h2, if_neg h1, if_neg h3]

/-- The block of registers `V[0] .. V[x]` has `x + 1` bytes. -/
@[simp] theorem State.length_regsUpTo (x : Nibble) : (s.regsUpTo x).length = x.toNat + 1 := by
  have := x.isLt
  simp [State.regsUpTo]; omega

/-- Byte `k` of the block `V[0] .. V[x]` is `V[k]` (43_index_memory.md R137). -/
theorem State.getD_regsUpTo (x : Nibble) (k : Nat) (hk : k ≤ x.toNat) :
    (s.regsUpTo x).getD k 0 = s.reg (BitVec.ofNat 4 k) := by
  have := x.isLt
  have h16 : k < 16 := by omega
  simp [State.regsUpTo, State.reg, List.getD, Nat.lt_succ_of_le hk, h16,
    Nat.mod_eq_of_lt h16]

end Sys2Proof.Machine
end

