-- ==== Sys2Proof/Laws/Memory.lean ====
section
/-! SUPPORT. The laws of Memory: a read after a write, the canonical form, and the blocks. -/

namespace Sys2Proof.Machine

/-! ### A read after a write (20_memory.md R53, R58) -/

@[simp] theorem Memory.read_nil (a : Nat) : Memory.read [] a = 0 := rfl

theorem Memory.read_cons (k : Nat) (b : Byte) (m : Memory) (a : Nat) :
    Memory.read ((k, b) :: m) a = if a = k then b else m.read a := rfl

/-- A cell put in where none of its address is listed. -/
theorem Memory.read_insert (a : Nat) (b : Byte) (m : Memory) (h : ∀ c ∈ m, c.1 ≠ a) (x : Nat) :
    (Memory.insert a b m).read x = if x = a then b else m.read x := by
  induction m with
  | nil => rfl
  | cons c m ih =>
    obtain ⟨k, e⟩ := c
    have hk : k ≠ a := h (k, e) (by simp)
    have ih := ih fun c hc => h c (by simp [hc])
    rw [Memory.insert]
    split
    · rfl
    · simp only [Memory.read_cons, ih]
      by_cases h1 : x = k
      · simp [h1, hk]
      · simp [h1]

/-- A cell taken out reads as 0, and every other as before. -/
theorem Memory.read_filter (a : Nat) (m : Memory) (x : Nat) :
    Memory.read (m.filter (fun c => c.1 != a)) x = if x = a then 0 else m.read x := by
  induction m with
  | nil => simp
  | cons c m ih =>
    obtain ⟨k, e⟩ := c
    rw [List.filter_cons]
    by_cases hk : k = a
    · subst hk
      simp only [bne_self_eq_false, Bool.false_eq_true, if_false, ih, Memory.read_cons]
      by_cases hx : x = k <;> simp [hx]
    · simp only [bne_iff_ne, ne_eq, hk, not_false_eq_true, if_true, Memory.read_cons, ih]
      by_cases hx : x = k
      · simp [hx, hk]
      · simp [hx]

/-- A write is read back from its address and from no other, in any memory. -/
theorem Memory.read_write (m : Memory) (a : Nat) (b : Byte) (x : Nat) :
    (m.write a b).read x = if x = a then b else m.read x := by
  rw [Memory.write]
  split
  · rename_i hb
    rw [Memory.read_filter, hb]
  · rw [Memory.read_insert _ _ _ (by simp), Memory.read_filter]
    by_cases hx : x = a <;> simp [hx]

@[simp] theorem Memory.read_write_same (m : Memory) (a : Nat) (b : Byte) :
    (m.write a b).read a = b := by
  simp [Memory.read_write]

theorem Memory.read_write_ne (m : Memory) {a x : Nat} (b : Byte) (h : x ≠ a) :
    (m.write a b).read x = m.read x := by
  simp [Memory.read_write, h]

/-- What Memory holds after the bytes `bs` are written from `a` up. -/
theorem Memory.read_writeBlock (m : Memory) (a : Nat) (bs : List Byte) (x : Nat) :
    (m.writeBlock a bs).read x
      = if a ≤ x ∧ x < a + bs.length then bs.getD (x - a) 0 else m.read x := by
  induction bs generalizing m a with
  | nil => simp [Memory.writeBlock]
  | cons b bs ih =>
    rw [Memory.writeBlock, ih, Memory.read_write, List.length_cons]
    by_cases h1 : x = a
    · simp [h1]
    · by_cases h2 : a + 1 ≤ x ∧ x < a + 1 + bs.length
      · have h3 : a ≤ x ∧ x < a + (bs.length + 1) := by omega
        rw [if_pos h2, if_pos h3]
        have h4 : x - a = (x - (a + 1)) + 1 := by omega
        rw [h4]; simp
      · have h3 : ¬ (a ≤ x ∧ x < a + (bs.length + 1)) := by omega
        rw [if_neg h2, if_neg h1, if_neg h3]

@[simp] theorem Memory.length_readBlock (m : Memory) (a n : Nat) : (m.readBlock a n).length = n := by
  induction n generalizing a with
  | zero => rfl
  | succ n ih => simp [Memory.readBlock, ih]

/-- Byte `k` of a block read from `a` up is the byte at `a + k`. -/
theorem Memory.getD_readBlock (m : Memory) (a n k : Nat) (hk : k < n) :
    (m.readBlock a n).getD k 0 = m.read (a + k) := by
  induction n generalizing a k with
  | zero => omega
  | succ n ih =>
    rw [Memory.readBlock]
    cases k with
    | zero => simp
    | succ k =>
      have := ih (a + 1) k (by omega)
      simp only [List.getD_cons_succ, this]
      congr 1; omega

/-! ### The canonical form is kept -/

theorem Memory.mem_insert (a : Nat) (b : Byte) (m : Memory) (c : Host.Cell) :
    c ∈ Memory.insert a b m ↔ c = (a, b) ∨ c ∈ m := by
  induction m with
  | nil => simp [Memory.insert]
  | cons d m ih =>
    obtain ⟨k, e⟩ := d
    rw [Memory.insert]
    split
    · simp
    · simp only [List.mem_cons, ih]; tauto

theorem Memory.pairwise_insert (a : Nat) (b : Byte) (m : Memory) (h : ∀ c ∈ m, c.1 ≠ a)
    (hm : m.Pairwise (fun c d => c.1 < d.1)) :
    (Memory.insert a b m).Pairwise (fun c d => c.1 < d.1) := by
  induction m with
  | nil => simp [Memory.insert]
  | cons d m ih =>
    obtain ⟨k, e⟩ := d
    have hk : k ≠ a := h (k, e) (by simp)
    obtain ⟨hd, hm'⟩ := List.pairwise_cons.mp hm
    rw [Memory.insert]
    split
    · rename_i hlt
      refine List.pairwise_cons.mpr ⟨fun c hc => ?_, hm⟩
      rcases List.mem_cons.mp hc with rfl | hc
      · exact hlt
      · exact lt_trans hlt (hd c hc)
    · refine List.pairwise_cons.mpr ⟨fun c hc => ?_, ih (fun c hc => h c (by simp [hc])) hm'⟩
      rcases (Memory.mem_insert a b m c).mp hc with rfl | hc
      · simp only; omega
      · exact hd c hc

/-- A write to a cell that exists keeps the canonical form. -/
theorem Memory.wf_write {m : Memory} (hm : m.wf) {a : Nat} (ha : a < Config.memSize) (b : Byte) :
    (m.write a b).wf := by
  obtain ⟨hp, hc⟩ := hm
  have hp' := hp.filter (fun c => c.1 != a)
  have hc' : ∀ c ∈ m.filter (fun c => c.1 != a), c.1 < Config.memSize ∧ c.2 ≠ 0 :=
    fun c h => hc c (List.mem_filter.mp h).1
  rw [Memory.write]
  split
  · exact ⟨hp', hc'⟩
  · rename_i hb
    refine ⟨Memory.pairwise_insert _ _ _ (by simp) hp', fun c h => ?_⟩
    rcases (Memory.mem_insert a b _ c).mp h with rfl | h
    · exact ⟨ha, hb⟩
    · exact hc' c h

/-- A block written to cells that exist keeps the canonical form. -/
theorem Memory.wf_writeBlock {m : Memory} (hm : m.wf) (a : Nat) (bs : List Byte)
    (h : a + bs.length ≤ Config.memSize) : (m.writeBlock a bs).wf := by
  induction bs generalizing m a with
  | nil => exact hm
  | cons b bs ih =>
    rw [List.length_cons] at h
    exact ih (Memory.wf_write hm (by omega) b) (a + 1) (by omega)

theorem Memory.wf_nil : Memory.wf [] := ⟨List.Pairwise.nil, by simp⟩

/-- The memory after reset is in canonical form. -/
theorem State.reset_mem_wf : State.reset.mem.wf := Memory.wf_nil

/-- Every place of an instruction word keeps the canonical form. -/
theorem State.placeWord_mem_wf {s : State} (hs : s.mem.wf) (a : Nat) (w : Word) :
    (s.placeWord a w).mem.wf := by
  unfold State.placeWord
  have h1 : (if a < Config.memSize then { s with mem := s.mem.write a (hiByte w) } else s).mem.wf := by
    split
    · exact Memory.wf_write hs ‹_› _
    · exact hs
  simp only
  split
  · exact Memory.wf_write h1 ‹_› _
  · exact h1

/-- Two memories in canonical form that read the same are the same list. -/
theorem Memory.wf_ext {m n : Memory} (hm : m.wf) (hn : n.wf) (h : ∀ a, m.read a = n.read a) :
    m = n := by
  have low : ∀ (l : Memory) (k : Nat), (∀ c ∈ l, k < c.1) → l.read k = 0 := by
    intro l k hl
    induction l with
    | nil => rfl
    | cons c l ih =>
      obtain ⟨j, e⟩ := c
      have : k < j := hl (j, e) (by simp)
      rw [Memory.read_cons, if_neg (by omega)]
      exact ih fun c hc => hl c (by simp [hc])
  induction m generalizing n with
  | nil =>
    cases n with
    | nil => rfl
    | cons d n =>
      obtain ⟨j, e⟩ := d
      have := h j
      simp only [Memory.read_nil, Memory.read_cons, if_true] at this
      exact absurd this.symm (hn.2 (j, e) (by simp)).2
  | cons c m ih =>
    obtain ⟨k, b⟩ := c
    obtain ⟨hpm, hcm⟩ := hm
    obtain ⟨hkm, hpm'⟩ := List.pairwise_cons.mp hpm
    have hb : b ≠ 0 := (hcm (k, b) (by simp)).2
    have hm' : Memory.wf m := ⟨hpm', fun c hc => hcm c (by simp [hc])⟩
    cases n with
    | nil =>
      have := h k
      simp only [Memory.read_nil, Memory.read_cons, if_true] at this
      exact absurd this hb
    | cons d n =>
      obtain ⟨j, e⟩ := d
      obtain ⟨hpn, hcn⟩ := hn
      obtain ⟨hjn, hpn'⟩ := List.pairwise_cons.mp hpn
      have he : e ≠ 0 := (hcn (j, e) (by simp)).2
      have hn' : Memory.wf n := ⟨hpn', fun c hc => hcn c (by simp [hc])⟩
      have hkj : k = j := by
        rcases Nat.lt_trichotomy k j with hlt | heq | hlt
        · have := h k
          rw [Memory.read_cons, if_pos rfl, Memory.read_cons, if_neg (by omega),
            low n k fun c hc => lt_trans hlt (hjn c hc)] at this
          exact absurd this hb
        · exact heq
        · have := h j
          rw [Memory.read_cons, if_neg (by omega), Memory.read_cons, if_pos rfl,
            low m j fun c hc => lt_trans hlt (hkm c hc)] at this
          exact absurd this.symm he
      subst hkj
      have hbe : b = e := by
        have := h k
        simpa only [Memory.read_cons, if_true] using this
      subst hbe
      congr 1
      refine ih hm' hn' fun a => ?_
      by_cases ha : a = k
      · subst ha
        rw [low m a hkm, low n a hjn]
      · have := h a
        simpa only [Memory.read_cons, if_neg ha] using this

end Sys2Proof.Machine
end

