-- ==== Sys2Proof/Laws/Ops.lean ====
section
/-! SUPPORT. Each shared operation once: what it answers and when it raises. -/

namespace Sys2Proof.Machine

variable (s : State)

/-! ### Taking an error (60_exceptions.md R186) -/

@[simp] theorem State.settle_ok (t : State) : s.settle (.ok t) = t := rfl

@[simp] theorem State.settle_error (e : ErrorRecord) : s.settle (.error e) = s.raise e := rfl

/-- The end of an instruction that accesses the `count` bytes from `first` (43_index_memory.md R133). -/
theorem State.settle_guardSpan (first count : Nat) (t : State) :
    s.settle (guardSpan first count t)
      = if count = 0 ∨ first + count ≤ Config.memSize then t
        else s.raise (.outOfBounds (max first Config.memSize)) := by
  unfold guardSpan
  split <;> rfl

/-- All the bytes exist, or there are none: the instruction has its effect. -/
theorem State.settle_guardSpan_ok {first count : Nat} (h : count = 0 ∨ first + count ≤ Config.memSize)
    (t : State) : s.settle (guardSpan first count t) = t := by
  rw [State.settle_guardSpan, if_pos h]

/-! ### The stack (10_state.md R21, R22) -/

theorem State.push_of_room (a : Word) (h : s.sp.val < 16) :
    s.push a = .ok { s with stack := s.stack.set s.sp.val a h, sp := ⟨s.sp.val + 1, by omega⟩ } := by
  rw [State.push, dif_pos h]

theorem State.push_of_full (a : Word) (h : s.sp = 16) : s.push a = .error (.stackOverflow a) := by
  rw [State.push, dif_neg (by simp [h])]

theorem State.pop_of_entry (h : 0 < s.sp.val) :
    s.pop = .ok (s.stack[s.sp.val - 1]'(by omega), { s with sp := ⟨s.sp.val - 1, by omega⟩ }) := by
  rw [State.pop, dif_pos h]

theorem State.pop_of_empty (h : s.sp = 0) : s.pop = .error .stackUnderflow := by
  rw [State.pop, dif_neg (by simp [h])]

/-- What a push that is accepted leaves (10_state.md R21). -/
theorem State.push_ok {a : Word} {t : State} (h : s.push a = .ok t) :
    t.sp.val = s.sp.val + 1 ∧ t.mem = s.mem ∧ t.fault = s.fault ∧ t.v = s.v ∧ t.pc = s.pc := by
  unfold State.push at h
  split at h
  · cases h; exact ⟨rfl, rfl, rfl, rfl, rfl⟩
  · cases h

/-- When a push raises, and what (60_exceptions.md R182). -/
theorem State.push_error {a : Word} {e : ErrorRecord} (h : s.push a = .error e) :
    e = .stackOverflow a ∧ s.sp = 16 := by
  unfold State.push at h
  split at h
  · cases h
  · cases h; exact ⟨rfl, by ext; have := s.sp.isLt; simp; omega⟩

/-- What a pop that is accepted leaves (10_state.md R22). -/
theorem State.pop_ok {a : Word} {t : State} (h : s.pop = .ok (a, t)) :
    t.sp.val + 1 = s.sp.val ∧ t.mem = s.mem ∧ t.fault = s.fault ∧ t.stack = s.stack := by
  unfold State.pop at h
  split at h
  · cases h; refine ⟨?_, rfl, rfl, rfl⟩; simp only; omega
  · cases h

/-- When a pop raises, and what (60_exceptions.md R183). -/
theorem State.pop_error {e : ErrorRecord} (h : s.pop = .error e) :
    e = .stackUnderflow ∧ s.sp = 0 := by
  unfold State.pop at h
  split at h
  · cases h
  · cases h; exact ⟨rfl, by ext; simp; omega⟩

/-! ### Fetch (10_state.md R24) -/

theorem State.fetch_ok (h : s.pc.toNat + 1 < Config.memSize) :
    s.fetch = .ok (joinBytes (s.mem.read s.pc.toNat) (s.mem.read (s.pc.toNat + 1))) := by
  simp only [State.fetch, State.memRead, if_pos (show s.pc.toNat < Config.memSize by omega), if_pos h]

/-- When a fetch raises, and what (60_exceptions.md R181). -/
theorem State.fetch_error {e : ErrorRecord} (h : s.fetch = .error e) :
    e = .outOfBounds (max s.pc.toNat Config.memSize) ∧ Config.memSize ≤ s.pc.toNat + 1 := by
  simp only [State.fetch, State.memRead] at h
  by_cases h1 : s.pc.toNat < Config.memSize
  · by_cases h2 : s.pc.toNat + 1 < Config.memSize
    · simp only [if_pos h1, if_pos h2] at h; cases h
    · simp only [if_pos h1, if_neg h2] at h; cases h
      exact ⟨by congr 1; omega, by omega⟩
  · simp only [if_neg h1] at h; cases h
    exact ⟨by congr 1; omega, by omega⟩

/-- A fetch reads PC and Memory only. -/
theorem State.fetch_congr {s t : State} (hp : t.pc = s.pc) (hm : t.mem = s.mem) :
    t.fetch = s.fetch := by
  simp only [State.fetch, State.memRead, hp, hm]

/-- An instruction word placed at PC is fetched (20_memory.md R56). -/
theorem State.fetch_placeWord (w : Word) (h : s.pc.toNat + 1 < Config.memSize) :
    (s.placeWord s.pc.toNat w).fetch = .ok w := by
  have h0 : s.pc.toNat < Config.memSize := by omega
  have hs : s.placeWord s.pc.toNat w =
      { s with mem := (s.mem.write s.pc.toNat (hiByte w)).write (s.pc.toNat + 1) (loByte w) } := by
    simp only [State.placeWord, if_pos h0, if_pos h]
  rw [hs, State.fetch_ok _ (by exact h)]
  simp [Memory.read_write]

end Sys2Proof.Machine
end

