-- ==== Sys2Proof/Laws/Display.lean ====
section
/-! SUPPORT. The display pixel by pixel. -/

namespace Sys2Proof.Machine

/-- A pixel and its reduced coordinates (44_display.md R150). -/
theorem Display.pixel_mod (d : Display) (col row : Nat) :
    d.pixel (col % 64) (row % 32) = d.pixel col row := by
  simp only [Display.pixel, Nat.mod_mod]

/-- Toggling changes one pixel and no other (44_display.md R152). -/
theorem Display.pixel_toggle (d : Display) (c r col row : Nat) :
    (d.toggle c r).pixel col row
      = if col % 64 = c % 64 ∧ row % 32 = r % 32 then !d.pixel col row else d.pixel col row := by
  simp only [Display.pixel, Display.toggle, Vector.getElem_set]
  by_cases hr : r % 32 = row % 32
  · have hc : col % 64 < 64 := Nat.mod_lt _ (by decide)
    simp only [hr, if_true, BitVec.getLsbD_xor, BitVec.getLsbD_shiftLeft, and_true]
    by_cases h : col % 64 = c % 64
    · have : c % 64 < 64 := Nat.mod_lt _ (by decide)
      simp [h, this]
    · rcases Nat.lt_or_gt_of_ne h with h' | h'
      · simp [h, h']
      · have h1 : col % 64 - c % 64 ≠ 0 := by omega
        have h2 : ¬ col % 64 < c % 64 := by omega
        simp [h, hc, h2, BitVec.getLsbD_one, h1]
  · have hr' : ¬ row % 32 = r % 32 := fun h => hr h.symm
    simp only [if_neg hr, hr', and_false, if_false]

/-- The pixel `c` of a row of 32 lines that are all off. -/
@[simp] theorem Display.pixel_off (col row : Nat) :
    Display.pixel (Vector.replicate 32 0#64) col row = false := by
  simp [Display.pixel]

/-- Two displays with the same pixels are the same. -/
theorem Display.ext_pixel {d e : Display}
    (h : ∀ col row, col < 64 → row < 32 → d.pixel col row = e.pixel col row) : d = e := by
  apply Vector.ext
  intro row hrow
  apply BitVec.eq_of_getLsbD_eq
  intro col hcol
  have := h col row hcol hrow
  simpa only [Display.pixel, Nat.mod_eq_of_lt hcol, Nat.mod_eq_of_lt hrow] using this

@[simp] theorem Canvas.dot_d (k : Canvas) (c r : Nat) : (k.dot c r).d = k.d.toggle c r := rfl

@[simp] theorem Canvas.dot_erased (k : Canvas) (c r : Nat) :
    (k.dot c r).erased = (k.erased || k.d.pixel c r) := rfl

/-- A sprite without a row draws nothing. -/
@[simp] theorem Canvas.drawRows_nil (k : Canvas) (cx row : Nat) : k.drawRows cx row [] = k := rfl

/-! ### Drawing (44_display.md R152, R153) -/

/-- What the bits `cs` of one sprite row do: a pixel changes exactly when a set bit falls on it, and an
erasure is noted exactly when one of those pixels was on. -/
theorem Canvas.drawBits_spec (cx row : Nat) (b : Byte) (cs : List Nat) (hs : cs.Pairwise (· < ·))
    (h8 : ∀ c ∈ cs, c < 8) (k : Canvas) (covers : Nat → Nat → Prop)
    (hcov : ∀ col r, covers col r ↔
      ∃ c ∈ cs, b.getLsbD (7 - c) = true ∧ col = (cx + c) % 64 ∧ r = row % 32) :
    (∀ col r, col < 64 → r < 32 →
      (covers col r → (k.drawBits cx row b cs).d.pixel col r = !k.d.pixel col r) ∧
      (¬ covers col r → (k.drawBits cx row b cs).d.pixel col r = k.d.pixel col r)) ∧
    ((k.drawBits cx row b cs).erased = true ↔
      k.erased = true ∨ ∃ col r, col < 64 ∧ r < 32 ∧ covers col r ∧ k.d.pixel col r = true) := by
  induction cs generalizing k covers with
  | nil => simp_all [Canvas.drawBits]
  | cons c cs ih =>
    obtain ⟨hc, hs'⟩ := List.pairwise_cons.1 hs
    have hc8 : c < 8 := h8 c (by simp)
    have h8' : ∀ c ∈ cs, c < 8 := fun c hc => h8 c (by simp [hc])
    by_cases hb : b.getLsbD (7 - c) = true
    · have e : k.drawBits cx row b (c :: cs) = (k.dot (cx + c) row).drawBits cx row b cs := by
        rw [Canvas.drawBits, if_pos hb]
      obtain ⟨ih1, ih2⟩ := ih hs' h8' (k.dot (cx + c) row) _ (fun _ _ => Iff.rfl)
      have hpix : ∀ col r, col < 64 → r < 32 → (k.dot (cx + c) row).d.pixel col r =
          if col = (cx + c) % 64 ∧ r = row % 32 then !k.d.pixel col r else k.d.pixel col r := by
        intro col r h1 h2
        rw [Canvas.dot_d, Display.pixel_toggle, Nat.mod_eq_of_lt h1, Nat.mod_eq_of_lt h2]
      have hdis : ∀ col r, (col = (cx + c) % 64 ∧ r = row % 32) →
          ¬ ∃ c ∈ cs, b.getLsbD (7 - c) = true ∧ col = (cx + c) % 64 ∧ r = row % 32 := by
        rintro col r ⟨rfl, rfl⟩ ⟨c', hc', _, h, _⟩
        have := hc c' hc'
        have := h8' c' hc'
        omega
      have hcov' : ∀ col r, covers col r ↔ (col = (cx + c) % 64 ∧ r = row % 32) ∨
          ∃ c ∈ cs, b.getLsbD (7 - c) = true ∧ col = (cx + c) % 64 ∧ r = row % 32 := by
        intro col r
        rw [hcov]
        simp [hb]
      rw [e]
      constructor
      · intro col r h1 h2
        obtain ⟨ia, ib⟩ := ih1 col r h1 h2
        have hp := hpix col r h1 h2
        rw [hcov']
        by_cases hh : col = (cx + c) % 64 ∧ r = row % 32
        · rw [if_pos hh] at hp
          exact ⟨fun _ => by rw [ib (hdis _ _ hh), hp], fun h => absurd (.inl hh) h⟩
        · rw [if_neg hh] at hp
          exact ⟨fun h => by rw [ia (h.resolve_left hh), hp],
            fun h => by rw [ib (fun h' => h (.inr h')), hp]⟩
      · rw [ih2, Canvas.dot_erased, Bool.or_eq_true]
        constructor
        · rintro ((h | h) | ⟨col, r, h1, h2, h3, h4⟩)
          · exact .inl h
          · refine .inr ⟨(cx + c) % 64, row % 32, Nat.mod_lt _ (by decide), Nat.mod_lt _ (by decide),
              (hcov' _ _).2 (.inl ⟨rfl, rfl⟩), ?_⟩
            rw [Display.pixel_mod]
            exact h
          · refine .inr ⟨col, r, h1, h2, (hcov' _ _).2 (.inr h3), ?_⟩
            rw [hpix _ _ h1 h2, if_neg (fun hh => hdis _ _ hh h3)] at h4
            exact h4
        · rintro (h | ⟨col, r, h1, h2, h3, h4⟩)
          · exact .inl (.inl h)
          · rcases (hcov' _ _).1 h3 with hh | hh
            · obtain ⟨rfl, rfl⟩ := hh
              rw [Display.pixel_mod] at h4
              exact .inl (.inr h4)
            · refine .inr ⟨col, r, h1, h2, hh, ?_⟩
              rw [hpix _ _ h1 h2, if_neg (fun h' => hdis _ _ h' hh)]
              exact h4
    · have e : k.drawBits cx row b (c :: cs) = k.drawBits cx row b cs := by
        rw [Canvas.drawBits, if_neg hb]
      rw [e]
      exact ih hs' h8' k covers (fun col r => by rw [hcov]; simp [hb])

/-- What the rows `bs` of a sprite do, fewer than 32 of them: a pixel changes exactly when a set bit
falls on it, and an erasure is noted exactly when one of those pixels was on. -/
theorem Canvas.drawRows_spec (cx row : Nat) (bs : List Byte) (hl : bs.length < 32) (k : Canvas)
    (covers : Nat → Nat → Prop)
    (hcov : ∀ col r, covers col r ↔ ∃ m c, m < bs.length ∧ c < 8 ∧
      (bs.getD m 0).getLsbD (7 - c) = true ∧ col = (cx + c) % 64 ∧ r = (row + m) % 32) :
    (∀ col r, col < 64 → r < 32 →
      (covers col r → (k.drawRows cx row bs).d.pixel col r = !k.d.pixel col r) ∧
      (¬ covers col r → (k.drawRows cx row bs).d.pixel col r = k.d.pixel col r)) ∧
    ((k.drawRows cx row bs).erased = true ↔
      k.erased = true ∨ ∃ col r, col < 64 ∧ r < 32 ∧ covers col r ∧ k.d.pixel col r = true) := by
  induction bs generalizing k row covers with
  | nil => simp_all [Canvas.drawRows]
  | cons b bs ih =>
    have hl' : bs.length < 32 := by
      simp only [List.length_cons] at hl
      omega
    obtain ⟨A, hA⟩ : ∃ A : Nat → Nat → Prop, ∀ col r, A col r ↔
        ∃ c ∈ [0, 1, 2, 3, 4, 5, 6, 7], b.getLsbD (7 - c) = true ∧ col = (cx + c) % 64 ∧
          r = row % 32 := ⟨_, fun _ _ => Iff.rfl⟩
    obtain ⟨B, hB⟩ : ∃ B : Nat → Nat → Prop, ∀ col r, B col r ↔
        ∃ m c, m < bs.length ∧ c < 8 ∧ (bs.getD m 0).getLsbD (7 - c) = true ∧
          col = (cx + c) % 64 ∧ r = (row + 1 + m) % 32 := ⟨_, fun _ _ => Iff.rfl⟩
    obtain ⟨a1, a2⟩ :=
      Canvas.drawBits_spec cx row b [0, 1, 2, 3, 4, 5, 6, 7] (by decide) (by decide) k A hA
    obtain ⟨ih1, ih2⟩ := ih (row + 1) hl' (k.drawRow cx row b) B hB
    have hAB : ∀ col r, covers col r ↔ A col r ∨ B col r := by
      intro col r
      rw [hcov, hA, hB]
      constructor
      · rintro ⟨m, c, hm, hc, hb, h1, h2⟩
        cases m with
        | zero => exact .inl ⟨c, by interval_cases c <;> simp, by simpa using hb, h1, by simpa using h2⟩
        | succ m =>
          refine .inr ⟨m, c, by simpa using hm, hc, by simpa using hb, h1, ?_⟩
          rw [h2]
          congr 1
          omega
      · rintro (⟨c, hc, hb, h1, h2⟩ | ⟨m, c, hm, hc, hb, h1, h2⟩)
        · exact ⟨0, c, by simp, by simp at hc; omega, by simpa using hb, h1, by simpa using h2⟩
        · refine ⟨m + 1, c, by simpa using hm, hc, by simpa using hb, h1, ?_⟩
          rw [h2]
          congr 1
          omega
    have hdis : ∀ col r, A col r → ¬ B col r := by
      intro col r
      rw [hA, hB]
      rintro ⟨c, _, _, _, h2⟩ ⟨m, c', hm, _, _, _, h4⟩
      omega
    have hr : ∀ col r, col < 64 → r < 32 →
        (A col r → (k.drawRow cx row b).d.pixel col r = !k.d.pixel col r) ∧
        (¬ A col r → (k.drawRow cx row b).d.pixel col r = k.d.pixel col r) := a1
    simp only [Canvas.drawRows]
    constructor
    · intro col r h1 h2
      rw [hAB]
      obtain ⟨x1, x2⟩ := hr col r h1 h2
      obtain ⟨y1, y2⟩ := ih1 col r h1 h2
      by_cases hh : A col r
      · exact ⟨fun _ => by rw [y2 (hdis _ _ hh), x1 hh], fun h => absurd (.inl hh) h⟩
      · exact ⟨fun h => by rw [y1 (h.resolve_left hh), x2 hh],
          fun h => by rw [y2 (fun h' => h (.inr h')), x2 hh]⟩
    · have a2' : (k.drawRow cx row b).erased = true ↔ _ := a2
      rw [ih2, a2']
      constructor
      · rintro ((h | ⟨col, r, h1, h2, h3, h4⟩) | ⟨col, r, h1, h2, h3, h4⟩)
        · exact .inl h
        · exact .inr ⟨col, r, h1, h2, (hAB _ _).2 (.inl h3), h4⟩
        · refine .inr ⟨col, r, h1, h2, (hAB _ _).2 (.inr h3), ?_⟩
          rw [(hr col r h1 h2).2 (fun h' => hdis _ _ h' h3)] at h4
          exact h4
      · rintro (h | ⟨col, r, h1, h2, h3, h4⟩)
        · exact .inl (.inl h)
        · rcases (hAB _ _).1 h3 with hh | hh
          · exact .inl (.inr ⟨col, r, h1, h2, hh, h4⟩)
          · refine .inr ⟨col, r, h1, h2, hh, ?_⟩
            rw [(hr col r h1 h2).2 (fun h' => hdis _ _ h' hh)]
            exact h4

variable (s : State) (x y : Nibble) (rows : List Byte)

@[simp] theorem State.drawSprite_i : (s.drawSprite x y rows).i = s.i := rfl
@[simp] theorem State.drawSprite_pc : (s.drawSprite x y rows).pc = s.pc := rfl
@[simp] theorem State.drawSprite_dt : (s.drawSprite x y rows).dt = s.dt := rfl
@[simp] theorem State.drawSprite_st : (s.drawSprite x y rows).st = s.st := rfl
@[simp] theorem State.drawSprite_stack : (s.drawSprite x y rows).stack = s.stack := rfl
@[simp] theorem State.drawSprite_sp : (s.drawSprite x y rows).sp = s.sp := rfl
@[simp] theorem State.drawSprite_mem : (s.drawSprite x y rows).mem = s.mem := rfl
@[simp] theorem State.drawSprite_fault : (s.drawSprite x y rows).fault = s.fault := rfl
@[simp] theorem State.drawSprite_randDraws : (s.drawSprite x y rows).randDraws = s.randDraws := rfl
@[simp] theorem State.drawSprite_keySamples : (s.drawSprite x y rows).keySamples = s.keySamples := rfl

@[simp] theorem State.drawSprite_display :
    (s.drawSprite x y rows).display = (s.drawn x y rows).d := rfl

/-- VF is the only register a sprite writes, and it is written last (44_display.md R152). -/
@[simp] theorem State.reg_drawSprite (z : Nibble) :
    (s.drawSprite x y rows).reg z
      = if z = vf then collisionFlag (s.drawn x y rows).erased else s.reg z := by
  rw [State.drawSprite, State.reg_setReg]
  rfl

end Sys2Proof.Machine
end

