-- ==== Sys2Proof/Laws/Step.lean ====
section
/-! SUPPORT. What one step can do, said once: the cases of `execute` and of `step`. -/

namespace Sys2Proof.Machine

/-- Every instruction answers a next state, in every state: where it raises, the state with the error
taken (60_exceptions.md R186, R188). -/
theorem exec_answers_next (i : Instr) (s : State) : ∃ t, exec i s = .next t := by
  cases i <;> exact ⟨_, rfl⟩

/-- A halted engine refuses to execute (30_encoding.md R66). -/
theorem execute_of_halted {s : State} {e : ErrorRecord} (h : s.fault = some e) (w : Word) :
    execute w s = .fault (.halted e) := by
  simp only [execute, h]

/-- In a running state, a word of the dispatch table executes as its instruction (R66). -/
theorem execute_of_decode {s : State} (h : s.fault = none) {w : Word} {i : Instr}
    (hd : decode w = .ok i) : execute w s = exec i s := by
  simp only [execute, h, hd]

/-- In a running state, every other word raises InvalidInstruction (R68). -/
theorem execute_of_invalid {s : State} (h : s.fault = none) {w : Word} {r : Reject}
    (hd : decode w = .error r) : execute w s = .next (s.raise (.invalidInstruction w)) := by
  simp only [execute, h, hd]

/-- The cases of a step that answers a next state (10_state.md R24, 60_exceptions.md R191). -/
theorem step_cases {s t : State} (h : step s = .next t) :
    s.fault = none ∧
    ((∃ e, s.fetch = .error e ∧ t = s.raise e) ∨
     (∃ w r, s.fetch = .ok w ∧ decode w = .error r ∧ t = s.raise (.invalidInstruction w)) ∨
     (∃ w i u, s.fetch = .ok w ∧ decode w = .ok i ∧ exec i s.advancePc = .next u ∧
        t = s.precise u)) := by
  have hf : s.fault = none := by
    cases hs : s.fault with
    | none => rfl
    | some e => simp only [step, cycle, hs] at h; cases h
  refine ⟨hf, ?_⟩
  cases hw : s.fetch with
  | error e =>
    simp only [step, cycle, hf, hw] at h
    cases h
    exact .inl ⟨e, rfl, rfl⟩
  | ok w =>
    simp only [step, cycle, hf, hw] at h
    have hf' : s.advancePc.fault = none := hf
    cases hd : decode w with
    | error r =>
      rw [execute_of_invalid hf' hd] at h
      cases h
      refine .inr (.inl ⟨w, r, rfl, hd, ?_⟩)
      simp [State.precise, State.raise, hf]
    | ok i =>
      rw [execute_of_decode hf' hd] at h
      obtain ⟨u, hu⟩ := exec_answers_next i s.advancePc
      rw [hu] at h
      cases h
      exact .inr (.inr ⟨w, i, u, rfl, hd, hu, rfl⟩)

/-- The result of an operation that did not raise. -/
theorem State.precise_of_running {s t : State} (h : t.fault = none) : s.precise t = t := by
  simp only [State.precise, h]

/-- The result of an operation that raised. -/
theorem State.precise_of_halted {s t : State} {e : ErrorRecord} (h : t.fault = some e) :
    s.precise t = s.raise e := by
  simp only [State.precise, h]

end Sys2Proof.Machine
end

