-- ==== Sys2Proof/Laws/Frames.lean ====
section
/-! SUPPORT. The frame of each shared operation, said once: which parts of the state it may change. -/

namespace Sys2Proof.Machine

/-! ### Putting frames together -/

theorem SameBut.refl (ps : List Part) (s : State) : SameBut ps s s := by
  intro p _; cases p <;> simp [Part.Same]

theorem Part.Same.trans {s t u : State} {p : Part} (h₁ : Part.Same s t p) (h₂ : Part.Same t u p) :
    Part.Same s u p := by
  cases p <;> simp_all [Part.Same]

theorem SameBut.trans {ps : List Part} {s t u : State} (h₁ : SameBut ps s t) (h₂ : SameBut ps t u) :
    SameBut ps s u := fun p hp => (h₁ p hp).trans (h₂ p hp)

theorem SameBut.mono {ps qs : List Part} {s t : State} (h : SameBut ps s t) (hq : ∀ p ∈ ps, p ∈ qs) :
    SameBut qs s t := fun p hp => h p fun hp' => hp (hq p hp')

/-- A change of one register leaves all the others. -/
theorem RegsBut.setReg (x : Nibble) (s : State) (b : Byte) : RegsBut x s (s.setReg x b) :=
  fun y hy => by simp [hy]

/-! ### One lemma for each update -/

variable (s : State)

theorem SameBut.setReg (x : Nibble) (b : Byte) : SameBut [.regs] s (s.setReg x b) := by
  intro p hp; cases p <;> simp [Part.Same, State.pixel] at hp ⊢

theorem SameBut.setRegs (k : Nat) (bs : List Byte) : SameBut [.regs] s (s.setRegs k bs) := by
  intro p hp; cases p <;> simp [Part.Same, State.pixel] at hp ⊢

theorem SameBut.setFlagThenReg (f : Byte) (x : Nibble) (b : Byte) :
    SameBut [.regs] s (s.setFlagThenReg f x b) :=
  (SameBut.setReg s vf f).trans (SameBut.setReg _ x b)

theorem SameBut.pc (a : Word) : SameBut [.pc] s { s with pc := a } := by
  intro p hp; cases p <;> simp [Part.Same, State.pixel, State.reg] at hp ⊢

theorem SameBut.skipIf (c : Bool) : SameBut [.pc] s (s.skipIf c) := SameBut.pc s _

theorem SameBut.retreatPc : SameBut [.pc] s s.retreatPc := SameBut.pc s _

theorem SameBut.advancePc : SameBut [.pc] s s.advancePc := SameBut.pc s _

theorem SameBut.index (a : Word) : SameBut [.index] s { s with i := a } := by
  intro p hp; cases p <;> simp [Part.Same, State.pixel, State.reg] at hp ⊢

theorem SameBut.dt (b : Byte) : SameBut [.dt] s { s with dt := b } := by
  intro p hp; cases p <;> simp [Part.Same, State.pixel, State.reg] at hp ⊢

theorem SameBut.st (b : Byte) : SameBut [.st] s { s with st := b } := by
  intro p hp; cases p <;> simp [Part.Same, State.pixel, State.reg] at hp ⊢

theorem SameBut.mem (m : Memory) : SameBut [.mem] s { s with mem := m } := by
  intro p hp; cases p <;> simp [Part.Same, State.pixel, State.reg] at hp ⊢

theorem SameBut.stack (stk : Vector Word 16) (n : Fin 17) :
    SameBut [.stack] s { s with stack := stk, sp := n } := by
  intro p hp; cases p <;> simp [Part.Same, State.pixel, State.reg] at hp ⊢

theorem SameBut.display (d : Display) : SameBut [.display] s { s with display := d } := by
  intro p hp; cases p <;> simp [Part.Same, State.reg] at hp ⊢

theorem SameBut.raise (e : ErrorRecord) : SameBut [.fault] s (s.raise e) := by
  intro p hp; cases p <;> simp [Part.Same, State.pixel] at hp ⊢

theorem SameBut.drawRand : SameBut [.draws] s s.drawRand.2 := by
  intro p hp; cases p <;> simp [Part.Same, State.pixel] at hp ⊢

theorem SameBut.sampleKeys : SameBut [.samples] s s.sampleKeys.2 := by
  intro p hp; cases p <;> simp [Part.Same, State.pixel] at hp ⊢

theorem SameBut.drawSprite (x y : Nibble) (rows : List Byte) :
    SameBut [.regs, .display] s (s.drawSprite x y rows) := by
  intro p hp; cases p <;> simp [Part.Same] at hp ⊢

/-- A block written changes the bytes of its span alone. -/
theorem MemBut.writeBlock (a : Nat) (bs : List Byte) :
    MemBut a bs.length s { s with mem := s.mem.writeBlock a bs } := by
  intro x hx
  show (s.mem.writeBlock a bs).read x = s.mem.read x
  rw [Memory.read_writeBlock, if_neg (by omega)]

/-! ### Errors -/

/-- In a running state an error halts, and changes FAULT alone. -/
theorem HaltedBy.raise {s : State} (h : s.Running) (e : ErrorRecord) : HaltedBy e s (s.raise e) :=
  State.raise_of_running h e

/-- An access outside Memory halts (60_exceptions.md R181). -/
theorem HaltedBy.guardSpan {s : State} (h : s.Running) {first count : Nat} (hc : count ≠ 0)
    (ho : Config.memSize < first + count) (t : State) :
    HaltedBy (.outOfBounds (max first 4096)) s (s.settle (guardSpan first count t)) := by
  rw [State.settle_guardSpan, if_neg (by omega)]
  exact HaltedBy.raise h _

end Sys2Proof.Machine
end

