-- ==== Sys2Proof/Laws/Operands.lean ====
section
/-! SUPPORT. The operand forms, the flags and the skip, as numbers; and the encodings by mask and match. -/

namespace Sys2Proof.Machine

/-! ### Operands (30_encoding.md R63, 43_index_memory.md R132, 45_timer_keypad.md R160) -/

theorem toNat_zextImm (nnn : Imm12) : (zextImm nnn).toNat = nnn.toNat := by
  have := nnn.isLt
  simp [zextImm]
  omega

theorem toNat_zextByte (b : Byte) : (zextByte b).toNat = b.toNat := by
  have := b.isLt
  simp [zextByte]
  omega

theorem toNat_lowNibble (b : Byte) : (lowNibble b).toNat = b.toNat % 16 := by
  simp [lowNibble]

theorem keyDown_eq (keys : Word) (b : Byte) : keyDown keys b = keys.getLsbD (b.toNat % 16) := by
  rw [keyDown, toNat_lowNibble]

/-- Where a key is down, `lowestKey` is the lowest one (45_timer_keypad.md R164). -/
theorem lowestKey_spec {keys : Word} (h : keys ≠ 0) :
    (lowestKey keys).toNat < 16 ∧ keys.getLsbD (lowestKey keys).toNat = true ∧
    ∀ k, k < (lowestKey keys).toNat → keys.getLsbD k = false := by
  have hl : ([0, 1, 2, 3, 4, 5, 6, 7, 8, 9, 10, 11, 12, 13, 14, 15] : List Nat) = List.range 16 := rfl
  unfold lowestKey
  rw [hl]
  cases hf : (List.range 16).find? keys.getLsbD with
  | none =>
    refine absurd (BitVec.eq_of_getLsbD_eq fun i hi => ?_) h
    simpa using List.find?_eq_none.1 hf i (by simpa using hi)
  | some a =>
    obtain ⟨h1, h2, h3⟩ := List.find?_range_eq_some.1 hf
    have ha : a < 16 := by simpa using h2
    have e : (BitVec.ofNat 8 ((some a).getD 0)).toNat = a := by
      simp only [Option.getD_some, BitVec.toNat_ofNat]
      omega
    rw [e]
    exact ⟨ha, h1, fun k hk => by simpa using h3 k hk⟩

/-! ### Flags (10_state.md R12) -/

theorem toNat_wideSum (a b : Byte) : (wideSum a b).toNat = a.toNat + b.toNat := by
  have := a.isLt
  have := b.isLt
  simp only [wideSum, BitVec.toNat_add, toNat_zextByte]
  omega

theorem carryFlag_eq (a b : Byte) : carryFlag a b = if 255 < a.toNat + b.toNat then 1 else 0 := by
  have h : (255 : Word) < wideSum a b ↔ 255 < a.toNat + b.toNat := by
    rw [BitVec.lt_def, toNat_wideSum]
    rfl
  simp only [carryFlag, h]

theorem noBorrowFlag_eq (a b : Byte) : noBorrowFlag a b = if a.toNat < b.toNat then 0 else 1 := by
  simp only [noBorrowFlag, BitVec.lt_def]

theorem toNat_shrFlag : ∀ a : Byte, (shrFlag a).toNat = a.toNat % 2 := by decide

theorem toNat_shlFlag : ∀ a : Byte, (shlFlag a).toNat = if 128 ≤ a.toNat then 128 else 0 := by decide

/-- Of a flag-setting instruction, every register but VF and the destination is the same (R110). -/
theorem State.reg_setFlagThenReg_other (s : State) (f : Byte) (x : Nibble) (b : Byte) {z : Nibble}
    (hx : z ≠ x) (hf : z ≠ 15) : (s.setFlagThenReg f x b).reg z = s.reg z := by
  have : z ≠ vf := hf
  simp [hx, this]

/-- VF is the flag unless it is the destination (R110, D8). -/
theorem State.vf_setFlagThenReg (s : State) (f : Byte) {x : Nibble} (b : Byte) (h : x ≠ 15) :
    (s.setFlagThenReg f x b).reg 15 = f := by
  have h2 : (15 : Nibble) ≠ x := Ne.symm h
  rw [State.reg_setFlagThenReg, if_neg h2]
  exact if_pos rfl

/-! ### Skips and timers -/

/-- A skip (40_flow.md R88): 2 extra or nothing. -/
theorem State.pc_skipIf (s : State) {c : Bool} {p : Prop} (h : p ↔ c = true) :
    (p → (s.skipIf c).pc.toNat = (s.pc.toNat + 2) % 65536) ∧ (¬ p → (s.skipIf c).pc = s.pc) := by
  cases c <;> simp_all [BitVec.toNat_add]

/-- A timer's decrement (60_exceptions.md R196). -/
theorem toNat_countDown (b : Byte) : (countDown b).toNat = b.toNat - 1 := by
  unfold countDown
  split
  · next h => rw [h]; rfl
  · next h =>
    have : b.toNat ≠ 0 := fun hb => h (BitVec.eq_of_toNat_eq hb)
    have := b.isLt
    have h1 : (1 : Byte).toNat = 1 := rfl
    rw [BitVec.toNat_sub, h1]
    omega

/-! ### Encodings by mask and match (30_encoding.md R67) -/

theorem EncodedAs.header {c : Word} {build : Fields → Instr}
    (h : ∀ f : Fields, f.h = (Fields.ofWord c).h → dispatch f = some (build f)) :
    EncodedAs 0xF000 c build := by
  intro w hw
  have h' := (Fields.mask_header w c).1 hw
  exact decode_of_dispatch (h _ (by rw [h']))

theorem EncodedAs.header_n {c : Word} {build : Fields → Instr}
    (h : ∀ f : Fields, f.h = (Fields.ofWord c).h → f.n = (Fields.ofWord c).n →
      dispatch f = some (build f)) : EncodedAs 0xF00F c build := by
  intro w hw
  have h' := (Fields.mask_header_n w c).1 hw
  exact decode_of_dispatch (h _ (by rw [h']) (by rw [h']))

theorem EncodedAs.header_kk {c : Word} {build : Fields → Instr}
    (h : ∀ f : Fields, f.h = (Fields.ofWord c).h → f.y = (Fields.ofWord c).y →
      f.n = (Fields.ofWord c).n → dispatch f = some (build f)) : EncodedAs 0xF0FF c build := by
  intro w hw
  have h' := (Fields.mask_header_kk w c).1 hw
  exact decode_of_dispatch (h _ (by rw [h']) (by rw [h']) (by rw [h']))

end Sys2Proof.Machine
end

