-- ==== Sys2Proof/Laws/PerInstr.lean ====
section
/-! SUPPORT. The family Dispatch, instruction by instruction: the fields of an instruction pass the
checks of WellFormed and dispatch to that instruction. -/

namespace Sys2Proof.Laws.Dispatch

/-- The fields of `i` are well formed and dispatch to `i`. -/
def Statement (i : Instr) : Prop :=
  (Fields.ofInstr i).WellFormed = true ∧ dispatch (Fields.ofInstr i) = some i

theorem cls : Statement .cls := ⟨rfl, rfl⟩
theorem ret : Statement .ret := ⟨rfl, rfl⟩
theorem jp (nnn : Imm12) : Statement (.jp nnn) := ⟨rfl, by simp [Fields.ofInstr, dispatch]⟩
theorem call (nnn : Imm12) : Statement (.call nnn) := ⟨rfl, by simp [Fields.ofInstr, dispatch]⟩
theorem seImm (x : Nibble) (kk : Byte) : Statement (.seImm x kk) := ⟨rfl, by simp [Fields.ofInstr, dispatch]⟩
theorem sneImm (x : Nibble) (kk : Byte) : Statement (.sneImm x kk) := ⟨rfl, by simp [Fields.ofInstr, dispatch]⟩
theorem seReg (x y : Nibble) : Statement (.seReg x y) := ⟨rfl, rfl⟩
theorem ldImm (x : Nibble) (kk : Byte) : Statement (.ldImm x kk) := ⟨rfl, by simp [Fields.ofInstr, dispatch]⟩
theorem addImm (x : Nibble) (kk : Byte) : Statement (.addImm x kk) := ⟨rfl, by simp [Fields.ofInstr, dispatch]⟩
theorem ldReg (x y : Nibble) : Statement (.ldReg x y) := ⟨rfl, rfl⟩
theorem orReg (x y : Nibble) : Statement (.orReg x y) := ⟨rfl, rfl⟩
theorem andReg (x y : Nibble) : Statement (.andReg x y) := ⟨rfl, rfl⟩
theorem xorReg (x y : Nibble) : Statement (.xorReg x y) := ⟨rfl, rfl⟩
theorem addReg (x y : Nibble) : Statement (.addReg x y) := ⟨rfl, rfl⟩
theorem sub (x y : Nibble) : Statement (.sub x y) := ⟨rfl, rfl⟩
theorem shr (x y : Nibble) : Statement (.shr x y) := ⟨rfl, rfl⟩
theorem subn (x y : Nibble) : Statement (.subn x y) := ⟨rfl, rfl⟩
theorem shl (x y : Nibble) : Statement (.shl x y) := ⟨rfl, rfl⟩
theorem sneReg (x y : Nibble) : Statement (.sneReg x y) := ⟨rfl, rfl⟩
theorem ldI (nnn : Imm12) : Statement (.ldI nnn) := ⟨rfl, by simp [Fields.ofInstr, dispatch]⟩
theorem jpV0 (nnn : Imm12) : Statement (.jpV0 nnn) := ⟨rfl, by simp [Fields.ofInstr, dispatch]⟩
theorem rnd (x : Nibble) (kk : Byte) : Statement (.rnd x kk) := ⟨rfl, by simp [Fields.ofInstr, dispatch]⟩
theorem drw (x y n : Nibble) : Statement (.drw x y n) := ⟨rfl, rfl⟩
theorem skp (x : Nibble) : Statement (.skp x) := by
  simp [Statement, Fields.ofInstr, Fields.WellFormed, Fields.checkHeaderE, Fields.selector_eq_kk, dispatch,
    dispatchE]
theorem sknp (x : Nibble) : Statement (.sknp x) := by
  simp [Statement, Fields.ofInstr, Fields.WellFormed, Fields.checkHeaderE, Fields.selector_eq_kk, dispatch,
    dispatchE]
theorem ldVxDt (x : Nibble) : Statement (.ldVxDt x) := by
  simp [Statement, Fields.ofInstr, Fields.WellFormed, Fields.checkHeaderF, Fields.selector_eq_kk, dispatch,
    dispatchF]
theorem ldVxK (x : Nibble) : Statement (.ldVxK x) := by
  simp [Statement, Fields.ofInstr, Fields.WellFormed, Fields.checkHeaderF, Fields.selector_eq_kk, dispatch,
    dispatchF]
theorem ldDtVx (x : Nibble) : Statement (.ldDtVx x) := by
  simp [Statement, Fields.ofInstr, Fields.WellFormed, Fields.checkHeaderF, Fields.selector_eq_kk, dispatch,
    dispatchF]
theorem ldStVx (x : Nibble) : Statement (.ldStVx x) := by
  simp [Statement, Fields.ofInstr, Fields.WellFormed, Fields.checkHeaderF, Fields.selector_eq_kk, dispatch,
    dispatchF]
theorem addI (x : Nibble) : Statement (.addI x) := by
  simp [Statement, Fields.ofInstr, Fields.WellFormed, Fields.checkHeaderF, Fields.selector_eq_kk, dispatch,
    dispatchF]
theorem ldF (x : Nibble) : Statement (.ldF x) := by
  simp [Statement, Fields.ofInstr, Fields.WellFormed, Fields.checkHeaderF, Fields.selector_eq_kk, dispatch,
    dispatchF]
theorem ldB (x : Nibble) : Statement (.ldB x) := by
  simp [Statement, Fields.ofInstr, Fields.WellFormed, Fields.checkHeaderF, Fields.selector_eq_kk, dispatch,
    dispatchF]
theorem storeRegs (x : Nibble) : Statement (.storeRegs x) := by
  simp [Statement, Fields.ofInstr, Fields.WellFormed, Fields.checkHeaderF, Fields.selector_eq_kk, dispatch,
    dispatchF]
theorem loadRegs (x : Nibble) : Statement (.loadRegs x) := by
  simp [Statement, Fields.ofInstr, Fields.WellFormed, Fields.checkHeaderF, Fields.selector_eq_kk, dispatch,
    dispatchF]

end Sys2Proof.Laws.Dispatch
end

