-- ==== Sys2Proof/Laws/Transactions.lean ====
section
/-! SUPPORT. The ends of the host's transactions, once: what a mutator, a read and a step answer. -/

namespace Sys2Proof.Machine

variable {s : State}

/-- A mutator of a halted engine is refused and changes nothing (60_exceptions.md R188, log 8). -/
theorem State.replyState_of_halted {e : ErrorRecord} (h : s.fault = some e)
    (r : Except ErrorRecord (State × Reply)) : s.replyState r = (s, .halted e) := by
  simp only [State.replyState, h]

/-- A mutator of a running engine that does not raise has its effect. -/
theorem State.replyState_of_ok (h : s.Running) (tr : State × Reply) : s.replyState (.ok tr) = tr := by
  have h' : s.fault = none := h
  simp only [State.replyState, h']

/-- A mutator of a running engine that raises changes FAULT alone (60_exceptions.md R186). -/
theorem State.replyState_of_error (h : s.Running) (e : ErrorRecord) :
    s.replyState (.error e) = (s.raise e, .failed e) := by
  have h' : s.fault = none := h
  simp only [State.replyState, h']

/-- A step, an execute or a tick of a halted engine is refused (60_exceptions.md R188). -/
theorem State.replyAnswer_halted (e : ErrorRecord) : s.replyAnswer (.fault (.halted e)) = (s, .halted e) := rfl

/-- A tick of a running engine (60_exceptions.md R196). -/
theorem tick_of_running (h : s.Running) :
    tick s = .next { s with dt := countDown s.dt, st := countDown s.st } := by
  have h' : s.fault = none := h
  simp only [tick, h']

end Sys2Proof.Machine
end

