-- ==== Sys2Proof/Tests/Slice0.lean ====
section
/-! SUPPORT. Tests of one step each, with results from spec/95_test_vectors.md (the vector's number is
in the comment), the WellFormed smoke, decoding of written-out words, and a witness for the hypotheses
of every statement. -/

namespace Sys2Proof.Tests

open Sys2Proof.Machine

/-! ### WellFormed: an ill-formed term for each check -/

theorem test_wellformed_refuses_header0 :
    (⟨0x0, 0x1, 0x2, 0x3⟩ : Fields).checkHeader0 = false ∧
    (⟨0x0, 0x1, 0x2, 0x3⟩ : Fields).WellFormed = false := by decide

theorem test_wellformed_refuses_header8 :
    (⟨0x8, 0x1, 0x2, 0xF⟩ : Fields).checkHeader8 = false ∧
    (⟨0x8, 0x1, 0x2, 0xF⟩ : Fields).WellFormed = false := by decide

theorem test_wellformed_refuses_headerE :
    (⟨0xE, 0x1, 0x9, 0xD⟩ : Fields).checkHeaderE = false ∧
    (⟨0xE, 0x1, 0x9, 0xD⟩ : Fields).WellFormed = false := by decide

theorem test_wellformed_refuses_headerF :
    (⟨0xF, 0x0, 0x7, 0x5⟩ : Fields).checkHeaderF = false ∧
    (⟨0xF, 0x0, 0x7, 0x5⟩ : Fields).WellFormed = false := by decide

theorem test_wellformed_accepts :
    (⟨0x0, 0xA, 0xB, 0xE⟩ : Fields).WellFormed = true ∧ (⟨0x8, 1, 2, 0xE⟩ : Fields).WellFormed = true ∧
    (⟨0xE, 1, 0xA, 0x1⟩ : Fields).WellFormed = true ∧ (⟨0xF, 1, 0x6, 0x5⟩ : Fields).WellFormed = true ∧
    (⟨0x5, 1, 2, 0xF⟩ : Fields).WellFormed = true := by decide

/-! ### Decoding, every constructor: words written out bit by bit from 30_encoding.md R61, R67 -/

theorem test_decode_flow :
    decode 0b0000000011101110 = .ok .ret ∧
    decode 0b0001001000110100 = .ok (.jp 0x234) ∧
    decode 0b0010101010111100 = .ok (.call 0xABC) ∧
    decode 0b0011001100101010 = .ok (.seImm 3 0x2A) ∧
    decode 0b0100001100101011 = .ok (.sneImm 3 0x2B) ∧
    decode 0b0101000100100000 = .ok (.seReg 1 2) ∧
    decode 0b1001000100100000 = .ok (.sneReg 1 2) ∧
    decode 0b1011001100000000 = .ok (.jpV0 0x300) := by decide

theorem test_decode_immediate :
    decode 0b0110000000000101 = .ok (.ldImm 0 5) ∧
    decode 0b0111000000000011 = .ok (.addImm 0 3) ∧
    decode 0b1100001100001111 = .ok (.rnd 3 0x0F) := by decide

theorem test_decode_alu :
    decode 0b1000000100100000 = .ok (.ldReg 1 2) ∧
    decode 0b1000000100100001 = .ok (.orReg 1 2) ∧
    decode 0b1000000100100010 = .ok (.andReg 1 2) ∧
    decode 0b1000000100100011 = .ok (.xorReg 1 2) ∧
    decode 0b1000000100100100 = .ok (.addReg 1 2) ∧
    decode 0b1000000100100101 = .ok (.sub 1 2) ∧
    decode 0b1000000100100110 = .ok (.shr 1 2) ∧
    decode 0b1000000100100111 = .ok (.subn 1 2) ∧
    decode 0b1000000100101110 = .ok (.shl 1 2) := by decide

theorem test_decode_index_memory :
    decode 0b1010001100000000 = .ok (.ldI 0x300) ∧
    decode 0b1111001000011110 = .ok (.addI 2) ∧
    decode 0b1111001100101001 = .ok (.ldF 3) ∧
    decode 0b1111010000110011 = .ok (.ldB 4) ∧
    decode 0b1111001001010101 = .ok (.storeRegs 2) ∧
    decode 0b1111001001100101 = .ok (.loadRegs 2) := by decide

theorem test_decode_display :
    decode 0b0000000011100000 = .ok .cls ∧
    decode 0b1101000000010010 = .ok (.drw 0 1 2) := by decide

theorem test_decode_timer_keypad :
    decode 0b1110001010011110 = .ok (.skp 2) ∧
    decode 0b1110001010100001 = .ok (.sknp 2) ∧
    decode 0b1111010100000111 = .ok (.ldVxDt 5) ∧
    decode 0b1111001100001010 = .ok (.ldVxK 3) ∧
    decode 0b1111010100010101 = .ok (.ldDtVx 5) ∧
    decode 0b1111111100011000 = .ok (.ldStVx 15) := by decide

/-- S8: words that are no instruction, and valid words that are not canonical. -/
theorem test_decode_invalid_and_noncanonical :
    decode 0x00E1 = .error (.invalidInstruction 0x00E1) ∧
    decode 0x8AB9 = .error (.invalidInstruction 0x8AB9) ∧
    decode 0xE09D = .error (.invalidInstruction 0xE09D) ∧
    decode 0xF085 = .error (.invalidInstruction 0xF085) ∧
    decode 0x0000 = .ok .cls ∧ decode 0x0ABE = .ok .ret ∧
    decode 0x5121 = .ok (.seReg 1 2) ∧ decode 0x9ABF = .ok (.sneReg 0xA 0xB) := by decide

/-! ### One step each. `run w s` is `step` from 0x200 with the word `w` there. -/

/-- The boot state of 70_reset_and_hazards.md R223 before the image is there. -/
def boot : State := { State.reset with pc := 0x200 }

/-- The state a step leaves. -/
def after (s : State) : State :=
  match step s with
  | .next t => t
  | _ => s

/-- The next state of an answer. -/
def nextOf : Answer → Option State
  | .next t => some t
  | _ => none

/-- The error a halted engine reports. -/
def reported : Answer → Option ErrorRecord
  | .fault (.halted e) => some e
  | _ => none

theorem next_of {a : Answer} {t : State} (h : nextOf a = some t) : a = .next t := by
  cases a with
  | next u => simp only [nextOf, Option.some.injEq] at h; rw [h]
  | fault r => cases h
  | refused r => cases h

/-- One step of the word `w` placed at PC. -/
def run (w : Nat) (s : State) : State := after (s.withFetchWord 16 w)

/-- A byte put in Memory. -/
def poke (s : State) (a : Nat) (b : Byte) : State := { s with mem := s.mem.write a b }

/-- A full stack. -/
def full : State := { boot with sp := 16 }

/-! Control transfer -/

/-- F2. -/
theorem test_ret_all_bits :
    let t := run 0x0ABE { boot with sp := 1, stack := boot.stack.set 0 0xFFFF }
    t.pc = 0xFFFF ∧ t.sp = 0 := by decide

/-- F3. -/
theorem test_ret_underflow :
    let t := run 0x00EE boot
    t.fault = some .stackUnderflow ∧ t.pc = 0x200 := by decide

/-- F4: the jump, and the fetch after it. -/
theorem test_jp_top :
    (run 0x1FFF boot).pc = 0xFFF ∧
    (after (run 0x1FFF boot)).fault = some (.outOfBounds 4096) := by decide

/-- F7. -/
theorem test_call_pushes_target :
    let t := run 0x2ABC boot
    t.stack[0] = 0x0ABC ∧ t.sp = 1 ∧ t.pc = 0x202 := by decide

/-- F8. -/
theorem test_call_overflow :
    let t := run 0x2ABC full
    t.fault = some (.stackOverflow 0x0ABC) ∧ t.sp = 16 ∧ t.pc = 0x200 := by decide

/-- S7, F9. -/
theorem test_se_imm :
    (run 0x332A (boot.setReg 3 0x2A)).pc = 0x204 ∧ (run 0x332B (boot.setReg 3 0x2A)).pc = 0x202 ∧
    (run 0x3F00 boot).pc = 0x204 := by decide

/-- S7. -/
theorem test_sne_imm :
    (run 0x432B (boot.setReg 3 0x2A)).pc = 0x204 ∧ (run 0x432A (boot.setReg 3 0x2A)).pc = 0x202 := by
  decide

/-- F14, F15. -/
theorem test_se_reg :
    (run 0x512F ((boot.setReg 1 3).setReg 2 3)).pc = 0x204 ∧
    (run 0x5120 ((boot.setReg 1 3).setReg 2 4)).pc = 0x202 := by decide

/-- F17, F18. -/
theorem test_sne_reg :
    (run 0x9127 ((boot.setReg 1 3).setReg 2 4)).pc = 0x204 ∧
    (run 0x9120 ((boot.setReg 1 3).setReg 2 3)).pc = 0x202 := by decide

/-- F22: not reduced to 12 bits, and the fetch after it. -/
theorem test_jp_v0_above_memory :
    (run 0xBFFF (boot.setReg 0 0xFF)).pc = 0x10FE ∧
    (after (run 0xBFFF (boot.setReg 0 0xFF))).fault = some (.outOfBounds 0x10FE) := by decide

/-- F23: a bare execute, PC wraps. -/
theorem test_skip_wraps :
    nextOf (execute 0x3000 { boot with pc := 0xFFFE }) = some { boot with pc := 0 } := by decide

/-! Register-immediate -/

/-- S1. -/
theorem test_ld_imm : (run 0x6FFF boot).reg 15 = 0xFF ∧ (run 0x6A37 boot).reg 10 = 0x37 := by decide

/-- M5. -/
theorem test_add_imm_wraps :
    let t := run 0x7001 ((boot.setReg 0 0xFF).setReg 15 7)
    t.reg 0 = 0 ∧ t.reg 15 = 7 := by decide

/-- M9, M11, with the drawn byte given. -/
theorem test_rnd_masks : (rndWith 0xA7 0 0x0F boot).reg 0 = 0x07 ∧ (rndWith 0x5A 15 0xF0 boot).reg 15 = 0x50 := by
  decide

/-- M10: a mask of 0 gives 0 whatever is drawn. -/
theorem test_rnd_zero_mask : (run 0xC000 (boot.setReg 0 9)).reg 0 = 0 := by
  show (0 : Byte) &&& Config.randByte 0 = 0
  simp

/-! Register-register -/

/-- A1. -/
theorem test_ld_reg :
    let t := run 0x8120 (((boot.setReg 1 1).setReg 2 0xAB).setReg 15 5)
    t.reg 1 = 0xAB ∧ t.reg 2 = 0xAB ∧ t.reg 15 = 5 := by decide

/-- A2. -/
theorem test_or :
    let t := run 0x8121 (((boot.setReg 1 0x55).setReg 2 0xAA).setReg 15 5)
    t.reg 1 = 0xFF ∧ t.reg 15 = 5 := by decide

/-- R113's example: F0 & 3C. -/
theorem test_and :
    let t := run 0x8012 (((boot.setReg 0 0xF0).setReg 1 0x3C).setReg 15 5)
    t.reg 0 = 0x30 ∧ t.reg 15 = 5 := by decide

/-- A4. -/
theorem test_xor :
    let t := run 0x8123 (((boot.setReg 1 0xFF).setReg 2 0x0F).setReg 15 5)
    t.reg 1 = 0xF0 ∧ t.reg 15 = 5 := by decide

/-- S2: the sums 255 and 256. -/
theorem test_add_carry_edge :
    (run 0x8124 (((boot.setReg 1 0x80).setReg 2 0x7F).setReg 15 1)).reg 15 = 0 ∧
    (run 0x8124 ((boot.setReg 1 0xFF).setReg 2 0x01)).reg 15 = 1 ∧
    (run 0x8124 ((boot.setReg 1 0xFF).setReg 2 0x01)).reg 1 = 0 := by decide

/-- A19, A21: VF as destination, VF as source. -/
theorem test_add_with_vf :
    (run 0x8F14 ((boot.setReg 15 0xF0).setReg 1 0x20)).reg 15 = 0x10 ∧
    (run 0x81F4 ((boot.setReg 1 0xFF).setReg 15 1)).reg 1 = 0 ∧
    (run 0x81F4 ((boot.setReg 1 0xFF).setReg 15 1)).reg 15 = 1 := by decide

/-- S3: equal operands, and a borrow. -/
theorem test_sub :
    (run 0x8125 ((boot.setReg 1 5).setReg 2 5)).reg 15 = 1 ∧
    (run 0x8015 ((boot.setReg 0 0x2C).setReg 1 0x64)).reg 0 = 0xC8 ∧
    (run 0x8015 ((boot.setReg 0 0x2C).setReg 1 0x64)).reg 15 = 0 := by decide

/-- A23. -/
theorem test_sub_into_vf : (run 0x8F15 (boot.setReg 1 1)).reg 15 = 0xFF := by decide

/-- A8. -/
theorem test_shr :
    let t := run 0x8126 ((boot.setReg 1 1).setReg 2 0xEE)
    t.reg 1 = 0 ∧ t.reg 15 = 1 ∧ t.reg 2 = 0xEE := by decide

/-- A25. -/
theorem test_shr_vf : (run 0x8F06 (boot.setReg 15 7)).reg 15 = 3 := by decide

/-- A11, A12. -/
theorem test_subn :
    (run 0x8127 (boot.setReg 1 1)).reg 1 = 0xFF ∧ (run 0x8127 (boot.setReg 1 1)).reg 15 = 0 ∧
    (run 0x8127 ((boot.setReg 1 0x10).setReg 2 0x30)).reg 1 = 0x20 ∧
    (run 0x8127 ((boot.setReg 1 0x10).setReg 2 0x30)).reg 15 = 1 := by decide

/-- A14. -/
theorem test_shl_raw_flag :
    let t := run 0x812E ((boot.setReg 1 0xFF).setReg 2 0xEE)
    t.reg 1 = 0xFE ∧ t.reg 15 = 0x80 ∧ t.reg 2 = 0xEE := by decide

/-- A27. -/
theorem test_shl_vf : (run 0x8F0E (boot.setReg 15 0xC1)).reg 15 = 0x82 := by decide

/-! Index register and memory -/

/-- I1, I2. -/
theorem test_ld_i : (run 0xA000 { boot with i := 0xFFFF }).i = 0 ∧ (run 0xAFFF boot).i = 0xFFF := by
  decide

/-- I4, I5. -/
theorem test_add_i :
    (run 0xF21E ({ boot with i := 0xFFF }.setReg 2 1)).i = 0x1000 ∧
    (run 0xF21E ({ boot with i := 0xFFFF }.setReg 2 2)).i = 1 := by decide

/-- I8, I10. -/
theorem test_ld_f :
    (run 0xF329 (boot.setReg 3 7)).i = 0x23 ∧ (run 0xF329 (boot.setReg 3 0x1A)).i = 0x32 := by decide

/-- S5, at the last legal place (I12). -/
theorem test_ld_b :
    let t := run 0xF433 ({ boot with i := 4093 }.setReg 4 255)
    t.mem.read 4093 = 2 ∧ t.mem.read 4094 = 5 ∧ t.mem.read 4095 = 5 ∧ t.i = 4093 := by decide

/-- I13, I15. -/
theorem test_ld_b_out_of_bounds :
    let t := run 0xF433 ({ boot with i := 4094 }.setReg 4 255)
    t.fault = some (.outOfBounds 4096) ∧ t.mem.read 4094 = 0 ∧
    (run 0xF433 { boot with i := 0xFFFF }).fault = some (.outOfBounds 65535) := by decide

/-- I16, I19. -/
theorem test_store_regs :
    let t := run 0xF055 (({ boot with i := 0x300 }.setReg 0 0xAA).setReg 1 0xBB)
    t.mem.read 0x300 = 0xAA ∧ t.mem.read 0x301 = 0 ∧ t.i = 0x301 ∧
    (run 0xF055 ({ boot with i := 0xFFF }.setReg 0 0x77)).i = 0x1000 := by decide

/-- I20. -/
theorem test_store_regs_out_of_bounds :
    let t := run 0xF155 ({ boot with i := 0xFFF }.setReg 0 0x77)
    t.fault = some (.outOfBounds 4096) ∧ t.mem.read 0xFFF = 0 ∧ t.i = 0xFFF := by decide

/-- I21. -/
theorem test_load_regs :
    let t := run 0xF165
      (poke (poke (poke ({ boot with i := 0x300 }.setReg 2 0x99) 0x300 0x11) 0x301 0x22) 0x302 0x33)
    t.reg 0 = 0x11 ∧ t.reg 1 = 0x22 ∧ t.reg 2 = 0x99 ∧ t.i = 0x300 := by decide

/-- I23. -/
theorem test_load_regs_out_of_bounds :
    let t := run 0xFF65 ({ boot with i := 0xFF1 }.setReg 0 5)
    t.fault = some (.outOfBounds 4096) ∧ t.reg 0 = 5 ∧ t.i = 0xFF1 := by decide

/-! Display -/

/-- S6: a pixel that was on, VF kept. -/
theorem test_cls :
    let t := run 0x00E0 ({ boot with display := boot.display.toggle 36 1 }.setReg 15 5)
    t.pixel 100 = false ∧ t.reg 15 = 5 := by decide

/-- D9: a collision. -/
theorem test_drw_collision :
    let t := run 0xD011 (poke { boot with i := 0x300, display := boot.display.toggle 1 0 } 0x300 0xF0)
    (t.pixel 0, t.pixel 1, t.pixel 2, t.pixel 3, t.pixel 4) = (true, false, true, true, false) ∧
    t.reg 15 = 1 := by decide

/-- D4, D8: both wraps; an error changes nothing. -/
theorem test_drw_wraps_and_faults :
    let t := run 0xD012
      (poke (poke (({ boot with i := 0x300 }.setReg 0 69).setReg 1 63) 0x300 0x80) 0x301 0x80)
    t.pixel (31 * 64 + 5) = true ∧ t.pixel 5 = true ∧ t.pixel 6 = false ∧ t.reg 15 = 0 ∧
    (run 0xD012 (poke ({ boot with i := 0xFFF }.setReg 15 3) 0xFFF 0x80)).reg 15 = 3 := by decide

/-! Keypad and timers; KEYS is given -/

/-- K4, K5, on the engine's own effect from 0x202. -/
theorem test_skp :
    (skpWith 0x0400 2 ({ boot with pc := 0x202 }.setReg 2 0x1A)).pc = 0x204 ∧
    (skpWith 0x0002 2 ({ boot with pc := 0x202 }.setReg 2 0x1A)).pc = 0x202 := by decide

/-- K6, K7. -/
theorem test_sknp :
    (sknpWith 0x0020 2 ({ boot with pc := 0x202 }.setReg 2 5)).pc = 0x202 ∧
    (sknpWith 0xFFDF 2 ({ boot with pc := 0x202 }.setReg 2 5)).pc = 0x204 := by decide

/-- K9, K11, K12. -/
theorem test_wait_key :
    let s := { boot with pc := 0x202 }.setReg 3 0x55
    (waitKeyWith 0 3 s).pc = 0x200 ∧ (waitKeyWith 0 3 s).reg 3 = 0x55 ∧
    (waitKeyWith 0x8000 3 s).reg 3 = 0x0F ∧ (waitKeyWith 0x0A00 3 s).reg 3 = 9 ∧
    (waitKeyWith 0x0A00 3 s).pc = 0x202 := by decide

/-- K14: the move back wraps. -/
theorem test_wait_key_wraps : (waitKeyWith 0 3 { boot with pc := 0 }).pc = 0xFFFE := by decide

/-- Whatever the keys are, one sample is taken (60_exceptions.md R200). -/
theorem test_key_step_samples_once : (run 0xE29E boot).keySamples = 1 := by rfl

/-- K15. -/
theorem test_ld_vx_dt :
    let t := run 0xF507 { boot with dt := 0xFF }
    t.reg 5 = 0xFF ∧ t.dt = 0xFF := by decide

/-- K16, K17. -/
theorem test_ld_dt_vx :
    (run 0xF515 (boot.setReg 5 0x3C)).dt = 0x3C ∧ (run 0xF515 { boot with dt := 9 }).dt = 0 := by decide

/-- K18. -/
theorem test_ld_st_vx : (run 0xFF18 (boot.setReg 15 0xFF)).st = 0xFF := by decide

/-- K20, K21. -/
theorem test_tick :
    nextOf (tick boot) = some boot ∧
    nextOf (tick { boot with dt := 255, st := 2 }) = some { boot with dt := 254, st := 1 } := by decide

/-! Fetch, errors and host operations -/

/-- E5, E6: an odd PC, and the byte order. -/
theorem test_fetch_odd_and_big_endian :
    let s := { boot with mem := [(0x201, 0x61), (0x202, 0x2A)] }
    (after { s with pc := 0x201 }).reg 1 = 0x2A ∧ (after { s with pc := 0x201 }).pc = 0x203 ∧
    (after { boot with mem := [(0x200, 0x05), (0x201, 0x60)] }).reg 0 = 0 := by decide

/-- E2, E3, E4, E7. -/
theorem test_step_errors :
    (after { boot with pc := 0xFFF }).fault = some (.outOfBounds 4096) ∧
    (after { boot with pc := 0x1000 }).fault = some (.outOfBounds 0x1000) ∧
    (after { boot with pc := 0xFFFF }).fault = some (.outOfBounds 0xFFFF) ∧
    run 0xFFFF boot =
      { boot.withFetchWord 16 0xFFFF with fault := some (.invalidInstruction 0xFFFF) } := by decide

/-- E8, E9. -/
theorem test_halted_and_reset :
    let s := run 0xFFFF boot
    reported (step s) = some (.invalidInstruction 0xFFFF) ∧
    reported (execute 0x6005 s) = some (.invalidInstruction 0xFFFF) ∧
    reported (tick s) = some (.invalidInstruction 0xFFFF) ∧
    (transact s .reset).1 = State.reset := by decide

/-- E13. -/
theorem test_load_keeps_the_rest :
    let s := (transact (transact boot (.load [9, 9, 9])).1 (.load [1, 2])).1
    (s.mem.read 512, s.mem.read 513, s.mem.read 514) = (1, 2, 9) := by decide

/-- E15, E17, E18, E19. -/
theorem test_host_operations :
    (transact boot (.getByte 4096)).2 = .failed (.outOfBounds 4096) ∧
    (transact boot (.getV 16)).2 = .failed (.outOfBounds 16) ∧
    (transact { boot with pc := 0xFFFE } .advancePc).1.pc = 0 ∧
    (transact ((boot.setReg 3 0xF8).setReg 15 2) (.addToGeneral 3 0x10)).1.reg 3 = 8 := by decide

/-- S4: push and pop by the host, and a pop of an empty stack. -/
theorem test_stack :
    (transact (transact boot (.push 0x0ABC)).1 .pop).2 = .word 0x0ABC ∧
    (transact boot .pop).2 = .failed .stackUnderflow ∧
    (transact full (.push 0x0400)).2 = .failed (.stackOverflow 0x0400) := by decide

/-! ### Witnesses: the hypotheses of every statement are met -/

/-- A halted state. -/
def halted : State := { boot with fault := some .stackUnderflow }

theorem witness_EncodeOfDecode :
    decode 0x0ABE = .ok .ret ∧ encode .ret = 0x00EE ∧ canonicalWord 0x0ABE = 0x00EE ∧
    decode 0x512F = .ok (.seReg 1 2) ∧ canonicalWord 0x512F = 0x5120 := by decide

theorem witness_WordsMatchTheirRow :
    decode 0xF265 = .ok (.loadRegs 2) ∧ (0xF0FF, 0xF065) ∈ opcodeRows ∧
    (0xF265 : Word) &&& 0xF0FF = 0xF065 := by decide

theorem witness_InvalidWordsAreExactlyThese :
    decode 0x0FFF = .error (.invalidInstruction 0x0FFF) ∧
    decode 0x800F = .error (.invalidInstruction 0x800F) ∧
    decode 0xEFFF = .error (.invalidInstruction 0xEFFF) ∧
    decode 0xF030 = .error (.invalidInstruction 0xF030) := by decide

/-- At the last fetchable address, once running on and once raising. -/
theorem witness_StepRunsTheDecodedInstruction :
    let s := { boot with pc := 4094, mem := [(4094, 0x60), (4095, 0x07)] }
    let u := { boot with pc := 4094, mem := [(4095, 0xEE)] }
    s.Running ∧ s.pc.toNat + 1 < 4096 ∧
    decode (s.mem.read s.pc.toNat ++ s.mem.read (s.pc.toNat + 1)) = .ok (.ldImm 0 7) ∧
    (after s).Running ∧ (after s).pc = 4096 ∧
    decode (u.mem.read u.pc.toNat ++ u.mem.read (u.pc.toNat + 1)) = .ok .ret ∧
    (after u).fault = some .stackUnderflow ∧ decode 0x6007 = .ok (.ldImm 0 7) := by
  unfold State.Running; decide

theorem witness_FetchOutsideMemoryHalts :
    State.Running { boot with pc := 4096 } ∧ 4096 ≤ (4096 : Word).toNat ∧
    4096 ≤ (0xFFFF : Word).toNat ∧ (4095 : Word).toNat = 4095 := by unfold State.Running; decide

theorem witness_InvalidWordHalts :
    (boot.withFetchWord 16 0xFFFF).Running ∧ decode 0xFFFF = .error (.invalidInstruction 0xFFFF) ∧
    (boot.withFetchWord 16 0xFFFF).fetch = .ok 0xFFFF := by unfold State.Running; decide

theorem witness_HaltedEngineRefuses :
    halted.fault = some .stackUnderflow ∧
    transact halted (.setI 7) = (halted, .halted .stackUnderflow) ∧
    transact halted (.load [1]) = (halted, .halted .stackUnderflow) ∧
    transact halted .pop = (halted, .halted .stackUnderflow) := by decide

theorem witness_ErrorsArePrecise :
    step { boot with pc := 4095 } =
      .next { boot with pc := 4095, fault := some (.outOfBounds 4096) } := next_of (by decide)

theorem boot_inv : boot.Inv := ⟨Memory.wf_nil, trivial⟩

/-- Once without and once with an error; a halted state meets the invariant as well. -/
theorem witness_StepKeepsInv :
    boot.Inv ∧ step boot = .next { boot with pc := 0x202 } ∧
    step (boot.withFetchWord 16 0x00EE) =
      .next { boot.withFetchWord 16 0x00EE with fault := some .stackUnderflow } ∧ halted.Inv :=
  ⟨boot_inv, next_of (by decide), next_of (by decide), Memory.wf_nil, rfl⟩

theorem witness_HostKeepsInv :
    boot.Inv ∧ (transactAll boot [.load [0x12, 0x00], .step, .tick, .pop, .step]).fault
      = some .stackUnderflow := ⟨boot_inv, by decide⟩

theorem witness_FinishedRunStays : (boot.withFetchWord 16 0x1200).Finished :=
  ⟨rfl, 0x200, by decide, by decide⟩

theorem witness_JumpSetsPc :
    (4095 : Imm12).toNat = 4095 ∧
    (let s := boot.withFetchWord 16 0x1200
     s.Running ∧ s.pc.toNat = (0x200 : Imm12).toNat ∧ s.fetch = .ok (encode (.jp 0x200))) := by
  unfold State.Running; decide

theorem witness_JumpWithOffsetAddsV0 :
    4095 ≤ (0xFFE : Imm12).toNat + ((boot.setReg 0 1).reg 0).toNat ∧
    4095 ≤ (0xFFF : Imm12).toNat + (boot.reg 0).toNat := by decide

theorem witness_CallPushesItsTarget :
    ({ boot with sp := 15 } : State).sp.val < 16 ∧ full.sp.val = 16 ∧ full.Running := by
  unfold State.Running; decide

theorem witness_ReturnPopsIntoPc :
    0 < ({ boot with sp := 1 } : State).sp.val ∧ 0 < full.sp.val ∧ boot.sp.val = 0 ∧
    boot.Running := by unfold State.Running; decide

theorem witness_SkipsAddTwoOrNothing :
    boot.reg 3 = 0 ∧ ¬ boot.reg 3 = 1 ∧ boot.reg 1 = boot.reg 2 ∧
    ¬ (boot.setReg 1 7).reg 1 = (boot.setReg 1 7).reg 2 := by decide

theorem witness_RandomIsMasked : (0xF0 : Byte).getLsbD 3 = false := by decide

/-- A destination other than VF and a carry, a borrow, a bit shifted out: at the edges. -/
theorem witness_flag_setting :
    (1 : Nibble) ≠ 15 ∧ (2 : Nibble) ≠ 1 ∧
    (let s := (boot.setReg 1 0xFF).setReg 2 1
     255 < (s.reg 1).toNat + (s.reg 2).toNat ∧ (s.reg 2).toNat < (s.reg 1).toNat ∧
     128 ≤ (s.reg 1).toNat ∧ (s.reg 1).toNat % 2 = 1) ∧
    (let s := (boot.setReg 1 0xFE).setReg 2 1
     ¬ 255 < (s.reg 1).toNat + (s.reg 2).toNat) := by decide

theorem witness_StoreBcdWritesThreeDigits :
    ({ boot with i := 4093 } : State).i.toNat + 2 < 4096 := by decide

/-- For StoreRegistersWritesTheBlock and LoadRegistersReadsTheBlock: the last legal place. -/
theorem witness_block_in_memory :
    ({ boot with i := 0xFF0 } : State).i.toNat + (15 : Nibble).toNat < 4096 ∧
    ({ boot with i := 0xFFF } : State).i.toNat + (0 : Nibble).toNat < 4096 ∧
    (3 : Nibble) ≤ 15 ∧ (0 : Nibble) < 3 := by decide

theorem witness_StoredBlockLoadsBack :
    let s := { boot with i := 4094 }.setReg 1 2
    let t := { boot with i := 4096, mem := [(4095, 2)] }.setReg 1 2
    s.i.toNat + (1 : Nibble).toNat < 4096 ∧ exec (.storeRegs 1) s = .next t ∧
    ({ boot with i := 4094, mem := [(4095, 2)] } : State).mem = t.mem ∧
    ({ boot with i := 4094, mem := [(4095, 2)] } : State).i = s.i :=
  ⟨by decide, next_of (by decide), rfl, rfl⟩

/-- The lowest I at which each of the four instructions raises. -/
theorem witness_AccessOutsideMemoryHalts :
    State.Running { boot with i := 4094 } ∧ 4096 ≤ (4094 : Word).toNat + 2 ∧
    4096 ≤ (4095 : Word).toNat + (1 : Nibble).toNat ∧ 4096 ≤ (4096 : Word).toNat + (0 : Nibble).toNat ∧
    (2 : Nibble) ≠ 0 ∧ 4096 ≤ (4095 : Word).toNat + (2 : Nibble).toNat - 1 := by
  unfold State.Running; decide

/-- A sprite of one pixel in the last byte of Memory, on a clear display and over itself; one pixel that
it does not cover; and the sprite without rows. -/
theorem witness_DrawXorsTheSprite :
    let s := { boot with i := 4095, mem := [(4095, 0x80)] }
    let u := { s with display := s.display.toggle 0 0 }
    s.i.toNat + (1 : Nibble).toNat ≤ 4096 ∧ SpriteCovers s 0 1 1 0 0 ∧ s.pixel 0 = false ∧
    ¬ SpriteCovers s 0 1 1 1 0 ∧ SpriteCovers u 0 1 1 0 0 ∧ u.pixel 0 = true ∧ (0 : Nibble) = 0 := by
  refine ⟨by decide, ⟨0, 0, by decide, by decide, by decide, by decide, by decide⟩, by decide, ?_,
    ⟨0, 0, by decide, by decide, by decide, by decide, by decide⟩, by decide, rfl⟩
  rintro ⟨r, c, hr, hc, hb, h, _⟩
  have hr0 : r = 0 := by simp at hr; exact hr
  subst hr0
  have hc1 : c = 1 := by
    have h' : 1 = (0 + c) % 64 := h
    omega
  subst hc1
  exact absurd hb (by decide)

/-- The same sprite drawn on a clear display, and over a pixel that was on. -/
theorem witness_DrawTwiceRestores :
    let s := { boot with i := 4095, mem := [(4095, 0x80)] }
    let u := { s with display := s.display.toggle 0 0 }
    (0 : Nibble) ≠ 15 ∧ (1 : Nibble) ≠ 15 ∧ s.i.toNat + (1 : Nibble).toNat ≤ 4096 ∧
    exec (.drw 0 1 1) s = .next u ∧ SpriteCovers s 0 1 1 0 0 ∧ s.pixel (0 * 64 + 0) = false ∧
    exec (.drw 0 1 1) u = .next (s.setReg 15 1) ∧ u.pixel (0 * 64 + 0) = true :=
  ⟨by decide, by decide, by decide, next_of (by decide),
   ⟨0, 0, by decide, by decide, by decide, by decide, by decide⟩, by decide, next_of (by decide),
   by decide⟩

theorem witness_KeySkipsTestOneKey :
    let s := boot.setReg 2 0x1A
    (0x0400 : Word).getLsbD ((s.reg 2).toNat % 16) = true ∧
    ¬ (0xFBFF : Word).getLsbD ((s.reg 2).toNat % 16) = true := by decide

theorem witness_KeyWaitTakesTheLowestKey :
    (0 : Word) = 0 ∧ (0x8000 : Word) ≠ 0 ∧ (lowestKey 0x8000).toNat = 15 ∧
    (lowestKey 0xFFFF).toNat = 0 := by decide

theorem witness_TimerTransfers : boot.Running ∧ (boot.setReg 5 0).reg 5 = 0 := by
  unfold State.Running; decide

/-- Once completing, once raising. -/
theorem witness_InstructionsWriteOnlyTheirRow :
    boot.Running ∧ exec (.jp 0x300) boot = .next { boot with pc := 0x300 } ∧
    exec .ret boot = .next { boot with fault := some .stackUnderflow } :=
  ⟨rfl, next_of (by decide), next_of (by decide)⟩

theorem witness_MemoryIsWrittenOnlyByStores :
    exec .cls boot = .next boot ∧ (∀ x, Instr.cls ≠ .ldB x) ∧ (∀ x, Instr.cls ≠ .storeRegs x) ∧
    HostOp.tick ≠ .reset ∧ (∀ bs, HostOp.tick ≠ .load bs) ∧ (∀ a b, HostOp.tick ≠ .setByte a b) ∧
    HostOp.tick ≠ .step ∧ (∀ w, HostOp.tick ≠ .execute w) ∧ 4095 < 4096 :=
  ⟨next_of (by decide), nofun, nofun, nofun, nofun, nofun, nofun, nofun, by decide⟩

theorem witness_StackIsReachedOnlyByPushAndPop :
    exec .cls boot = .next boot ∧ Instr.cls ≠ .ret ∧ (∀ nnn, Instr.cls ≠ .call nnn) ∧
    exec (.call 0) boot = .next { boot with sp := 1 } ∧ State.Running { boot with sp := 1 } ∧
    exec .ret { boot with sp := 1 } = .next { boot with pc := 0 } ∧
    State.Running { boot with pc := 0 } ∧ HostOp.getByte 4095 ∈ [HostOp.getByte 4095] :=
  ⟨next_of (by decide), nofun, nofun, next_of (by decide), rfl, next_of (by decide), rfl, by decide⟩

theorem witness_SoundTimerIsNeverRead :
    exec (.ldVxDt 5) boot = .next boot ∧
    exec (.ldVxDt 5) { boot with st := 7 } = .next { boot with st := 7 } :=
  ⟨next_of (by decide), next_of (by decide)⟩

theorem witness_FlagIsWrittenOnlyBySix :
    exec (.ldImm 15 7) boot = .next (boot.setReg 15 7) ∧ (boot.setReg 15 7).reg 15 ≠ boot.reg 15 ∧
    exec (.sub 1 2) boot = .next (boot.setReg 15 1) ∧ (boot.setReg 15 1).reg 15 ≠ boot.reg 15 :=
  ⟨next_of (by decide), by decide, next_of (by decide), by decide⟩

theorem witness_MemReadAndMemWrite : 4096 ≤ 4096 ∧ 4095 < 4096 := by decide

theorem witness_FetchSeesTheStoredWord :
    let s := { boot with pc := 4094 }
    let t := { s with mem := [(4094, 0x60)] }
    s.pc.toNat + 1 < 4096 ∧ s.memWrite s.pc.toNat 0x60 = .ok t ∧
    t.memWrite (s.pc.toNat + 1) 0x05 = .ok { s with mem := [(4094, 0x60), (4095, 0x05)] } :=
  ⟨by decide, rfl, rfl⟩

theorem witness_ResetLeavesZero : (transact halted .reset).1 = State.reset ∧ 2047 < 2048 := by decide

theorem witness_TickCountsDown : State.Running { boot with dt := 1 } := rfl

theorem witness_LoadCopiesTheImage :
    boot.Running ∧ (List.replicate 3584 (7 : Byte)).length ≤ 3584 ∧
    3584 < (List.replicate 3585 (7 : Byte)).length :=
  ⟨rfl, by rw [List.length_replicate], by rw [List.length_replicate]; decide⟩

theorem witness_PushThenPopReturns :
    ({ boot with sp := 15 } : State).push 0x0ABC =
      .ok { boot with sp := 16, stack := boot.stack.set 15 0x0ABC } := rfl

theorem witness_HostRegisterTransactions :
    boot.Running ∧ 16 ≤ 16 ∧ (15 : Nibble).toNat = 15 ∧
    ({ boot with sp := 15 } : State).push 7 =
      .ok { boot with sp := 16, stack := boot.stack.set 15 7 } ∧
    ({ boot with sp := 1 } : State).pop = .ok (0, boot) ∧
    full.Running ∧ full.sp.val = 16 ∧ boot.sp.val = 0 :=
  ⟨rfl, by decide, by decide, rfl, rfl, rfl, rfl, rfl⟩

/-- The accessors answer in a halted state too, and the mutators of I, DT and ST write (R28, R188). -/
theorem test_accessors_and_mutators :
    transact { halted with i := 0x123 } .getI = ({ halted with i := 0x123 }, .word 0x123) ∧
    (transact boot (.setI 0x123)).1.i = 0x123 ∧ (transact boot (.setDt 9)).1.dt = 9 ∧
    (transact boot (.setSt 8)).1.st = 8 ∧ (transact boot .getPc).2 = .word 0x200 := by decide

theorem witness_DisplayReadIsRowMajor : 63 < 64 ∧ 31 < 32 := by decide

end Sys2Proof.Tests
end

section
/-! PROOFS. The state (10_state.md): which parts an instruction and a transaction of the host leave as
they are (R26, R29), and that the call stack is apart from Memory (R18). -/

namespace Sys2Proof.Machine

/-! ### Operations that can raise: what they answer when they do not -/

/-- A span that passes its check answers the result it was given. -/
theorem eq_of_guardSpan_ok {first count : Nat} {t u : State} (h : guardSpan first count t = .ok u) :
    u = t := by
  unfold guardSpan at h
  split at h
  · cases h; rfl
  · cases h

/-- A push that is accepted writes the stack alone (R21). -/
theorem SameBut.of_push_ok {s t : State} {a : Word} (h : s.push a = .ok t) : SameBut [.stack] s t := by
  unfold State.push at h
  split at h
  · cases h; exact SameBut.stack s _ _
  · cases h

/-- A pop that is accepted writes the stack alone (R22). -/
theorem SameBut.of_pop_ok {s t : State} {a : Word} (h : s.pop = .ok (a, t)) : SameBut [.stack] s t := by
  unfold State.pop at h
  split at h
  · cases h; exact SameBut.stack s s.stack _
  · cases h

theorem exec_ret_of_pop_ok {s u : State} {a : Word} (h : s.pop = .ok (a, u)) :
    exec .ret s = .next { u with pc := a } := by
  simp only [exec, execRet, h, State.settle_ok]

theorem exec_ret_of_pop_error {s : State} {e : ErrorRecord} (h : s.pop = .error e) :
    exec .ret s = .next (s.raise e) := by
  simp only [exec, execRet, h, State.settle_error]

theorem State.not_running_raise (s : State) (e : ErrorRecord) : ¬ (s.raise e).Running := by
  simp [State.Running]

/-- `RET` (40_flow.md R80) that ends in a running state popped its PC. -/
theorem pop_of_exec_ret_running {s t : State} (h : exec .ret s = .next t) (ht : t.Running) :
    ∃ a u, s.pop = .ok (a, u) ∧ t = { u with pc := a } := by
  cases hp : s.pop with
  | error e =>
    rw [exec_ret_of_pop_error hp, Host.Outcome.next.injEq] at h
    exact absurd (h ▸ ht) (s.not_running_raise e)
  | ok au =>
    rw [exec_ret_of_pop_ok hp, Host.Outcome.next.injEq] at h
    exact ⟨au.1, au.2, rfl, h.symm⟩

/-- An operation that ends in a running state did not raise. -/
theorem State.eq_ok_of_settle_running {s : State} {r : Except ErrorRecord State}
    (h : (s.settle r).Running) : r = .ok (s.settle r) := by
  cases r with
  | ok t => rfl
  | error e => exact absurd h (s.not_running_raise e)

/-! ### The frame of every instruction (10_state.md R26) -/

/-- An operation that can raise has written the listed parts alone, or it has raised. -/
theorem SameBut.settle_or_raise {ps : List Part} {s : State} {r : Except ErrorRecord State}
    (h : ∀ t, r = .ok t → SameBut ps s t) :
    SameBut ps s (s.settle r) ∨ ∃ e, s.settle r = s.raise e := by
  cases r with
  | ok t => exact .inl (h t rfl)
  | error e => exact .inr ⟨e, rfl⟩

/-- The same for an instruction that accesses Memory (43_index_memory.md R133). -/
theorem SameBut.guardSpan_or_raise {ps : List Part} {s t : State} (h : SameBut ps s t)
    (first count : Nat) :
    SameBut ps s (s.settle (guardSpan first count t)) ∨
      ∃ e, s.settle (guardSpan first count t) = s.raise e :=
  SameBut.settle_or_raise fun _ hu => eq_of_guardSpan_ok hu ▸ h

/-- A key instruction's sample of KEYS comes before its other writes (60_exceptions.md R200). -/
theorem SameBut.after_sampleKeys {ps : List Part} {s t : State} (h : SameBut ps s.sampleKeys.2 t) :
    SameBut (ps ++ [.samples]) s t :=
  ((SameBut.sampleKeys s).mono (by simp)).trans (h.mono fun _ hp => List.mem_append_left _ hp)

/-- The key wait moves PC back or writes its register (45_timer_keypad.md R164). -/
theorem SameBut.waitKeyWith (keys : Word) (x : Nibble) (s : State) :
    SameBut [.regs, .pc] s (waitKeyWith keys x s) := by
  unfold Machine.waitKeyWith
  split
  · exact (SameBut.retreatPc s).mono (by simp)
  · exact (SameBut.setReg s x _).mono (by simp)

/-- Every instruction, in every state, writes the parts of its row alone, or it raises. -/
theorem exec_sameBut_or_raise (i : Instr) (s : State) :
    ∃ t, exec i s = .next t ∧ (SameBut (writes i) s t ∨ ∃ e, t = s.raise e) := by
  cases i with
  | cls => exact ⟨_, rfl, .inl (SameBut.display s _)⟩
  | ret =>
    cases hp : s.pop with
    | error e => exact ⟨_, exec_ret_of_pop_error hp, .inr ⟨e, rfl⟩⟩
    | ok au =>
      obtain ⟨a, u⟩ := au
      have hu : SameBut [.pc, .stack] s u := (SameBut.of_pop_ok hp).mono (by simp)
      exact ⟨_, exec_ret_of_pop_ok hp, .inl (hu.trans ((SameBut.pc u a).mono (by simp)))⟩
  | call nnn => exact ⟨_, rfl, SameBut.settle_or_raise fun _ h => SameBut.of_push_ok h⟩
  | jp | jpV0 => exact ⟨_, rfl, .inl (SameBut.pc s _)⟩
  | seImm | sneImm | seReg | sneReg => exact ⟨_, rfl, .inl (SameBut.skipIf s _)⟩
  | ldImm | addImm | ldReg | orReg | andReg | xorReg | ldVxDt =>
    exact ⟨_, rfl, .inl (SameBut.setReg s _ _)⟩
  | addReg | sub | shr | subn | shl => exact ⟨_, rfl, .inl (SameBut.setFlagThenReg s _ _ _)⟩
  | rnd x kk =>
    have hr : SameBut [.regs, .draws] s s.drawRand.2 := (SameBut.drawRand s).mono (by simp)
    exact ⟨_, rfl, .inl (hr.trans ((SameBut.setReg s.drawRand.2 x _).mono (by simp)))⟩
  | skp | sknp => exact ⟨_, rfl, .inl (SameBut.after_sampleKeys (SameBut.skipIf s.sampleKeys.2 _))⟩
  | ldVxK => exact ⟨_, rfl, .inl (SameBut.after_sampleKeys (SameBut.waitKeyWith _ _ _))⟩
  | ldDtVx => exact ⟨_, rfl, .inl (SameBut.dt s _)⟩
  | ldStVx => exact ⟨_, rfl, .inl (SameBut.st s _)⟩
  | ldI | addI | ldF => exact ⟨_, rfl, .inl (SameBut.index s _)⟩
  | drw => exact ⟨_, rfl, (SameBut.drawSprite s _ _ _).guardSpan_or_raise _ _⟩
  | ldB => exact ⟨_, rfl, (SameBut.mem s _).guardSpan_or_raise _ _⟩
  | storeRegs x =>
    have hm (m : Memory) (a : Word) : SameBut [.index, .mem] s { s with mem := m, i := a } :=
      ((SameBut.mem s m).mono (by simp)).trans ((SameBut.index { s with mem := m } a).mono (by simp))
    exact ⟨_, rfl, (hm _ _).guardSpan_or_raise _ _⟩
  | loadRegs => exact ⟨_, rfl, (SameBut.setRegs s _ _).guardSpan_or_raise _ _⟩

/-- A part other than FAULT that the row does not list stays the same, also where it raises. -/
theorem exec_keeps_part {i : Instr} {s t : State} (h : exec i s = .next t) {p : Part}
    (hp : p ∉ writes i) (hf : p ≠ .fault) : Part.Same s t p := by
  obtain ⟨u, hu, hframe⟩ := exec_sameBut_or_raise i s
  obtain rfl : u = t := Host.Outcome.next.inj (hu.symm.trans h)
  obtain hframe | ⟨e, rfl⟩ := hframe
  · exact hframe p hp
  · exact SameBut.raise s e p (by simpa using hf)

theorem mem_notMem_writes {i : Instr} (hb : ∀ x, i ≠ .ldB x) (hs : ∀ x, i ≠ .storeRegs x) :
    Part.mem ∉ writes i := by
  cases i with
  | ldB x => exact absurd rfl (hb x)
  | storeRegs x => exact absurd rfl (hs x)
  | _ => simp [writes]

theorem stack_notMem_writes {i : Instr} (hr : i ≠ .ret) (hc : ∀ nnn, i ≠ .call nnn) :
    Part.stack ∉ writes i := by
  cases i with
  | ret => exact absurd rfl hr
  | call nnn => exact absurd rfl (hc nnn)
  | _ => simp [writes]

/-! ### What the ends of the host's transactions keep -/

section Transactions

variable {s : State}

/-- A read that the host is answered keeps all but FAULT (60_exceptions.md R187). -/
theorem State.replyValue_keeps {α : Type} {f : State → α} (hf : ∀ e, f (s.raise e) = f s)
    (r : Except ErrorRecord Reply) : f (s.replyValue r).1 = f s := by
  cases r with
  | ok r => rfl
  | error e => exact hf e

/-- A mutator keeps what its result and an error keep (60_exceptions.md R186, R188). -/
theorem State.replyState_keeps {α : Type} {f : State → α} (hf : ∀ e, f (s.raise e) = f s)
    {r : Except ErrorRecord (State × Reply)} (h : ∀ tr, r = .ok tr → f tr.1 = f s) :
    f (s.replyState r).1 = f s := by
  cases hs : s.fault with
  | some e => rw [State.replyState_of_halted hs]
  | none =>
    cases r with
    | ok tr => rw [State.replyState_of_ok hs]; exact h tr rfl
    | error e => rw [State.replyState_of_error hs]; exact hf e

/-- The same for a mutator that returns nothing. -/
theorem State.replyState_quietly_keeps {α : Type} {f : State → α} (hf : ∀ e, f (s.raise e) = f s)
    {r : Except ErrorRecord State} (h : ∀ t, r = .ok t → f t = f s) :
    f (s.replyState (quietly r)).1 = f s := by
  refine State.replyState_keeps hf fun tr htr => ?_
  cases r with
  | ok t => cases htr; exact h t rfl
  | error e => cases htr

theorem State.setV_ok {k : Nat} {b : Byte} {t : State} (h : s.setV k b = .ok t) :
    t = s.setReg (BitVec.ofNat 4 k) b := by
  unfold State.setV at h
  split at h
  · cases h; rfl
  · cases h

theorem State.addV_ok {k : Nat} {b : Byte} {t : State} (h : s.addV k b = .ok t) :
    t = s.addToGeneral (BitVec.ofNat 4 k) b := by
  unfold State.addV at h
  split at h
  · cases h; rfl
  · cases h

theorem State.memWrite_ok {a : Nat} {b : Byte} {t : State} (h : s.memWrite a b = .ok t) :
    t = { s with mem := s.mem.write a b } := by
  unfold State.memWrite at h
  split at h
  · cases h; rfl
  · cases h

theorem State.load_ok {bs : List Byte} {t : State} (h : s.load bs = .ok t) :
    t = { s with mem := s.mem.writeBlock Config.progBase bs } := by
  unfold State.load at h
  split at h
  · cases h
  · cases h; rfl

/-- A tick counts the timers down or is refused (60_exceptions.md R188, R196). -/
theorem transact_tick_mem : (transact s .tick).1.mem = s.mem := by
  rw [transact]
  cases hs : s.fault with
  | some e => simp only [tick, hs, State.replyAnswer_halted]
  | none => simp only [tick_of_running hs, State.replyAnswer, hs]

/-- The transactions of the host that write Memory: reset, load, set_byte, and the two that run an
instruction. Every other one leaves it as it is (R29). -/
theorem transact_keeps_mem {op : HostOp} (hreset : op ≠ .reset) (hload : ∀ bs, op ≠ .load bs)
    (hset : ∀ a b, op ≠ .setByte a b) (hstep : op ≠ .step) (hexec : ∀ w, op ≠ .execute w) :
    (transact s op).1.mem = s.mem := by
  have hraise (e : ErrorRecord) : (s.raise e).mem = s.mem := rfl
  cases op with
  | reset => exact absurd rfl hreset
  | load bs => exact absurd rfl (hload bs)
  | setByte a b => exact absurd rfl (hset a b)
  | step => exact absurd rfl hstep
  | execute w => exact absurd rfl (hexec w)
  | getByte | getV => exact State.replyValue_keeps hraise _
  | getI | getDt | getSt | getPc | displayRead => rfl
  | setI | setDt | setSt | setPc | advancePc =>
    exact State.replyState_keeps hraise fun tr htr => by cases htr; rfl
  | setV => exact State.replyState_quietly_keeps hraise fun t ht => by rw [State.setV_ok ht]; rfl
  | addToGeneral => exact State.replyState_quietly_keeps hraise fun t ht => by rw [State.addV_ok ht]; rfl
  | push =>
    refine State.replyState_quietly_keeps hraise fun t ht => ?_
    obtain ⟨-, hmem, -⟩ := State.push_ok s ht
    exact hmem
  | pop =>
    refine State.replyState_keeps hraise fun tr htr => ?_
    cases hp : s.pop with
    | error e => rw [hp] at htr; cases htr
    | ok au =>
      obtain ⟨-, hmem, -⟩ := State.pop_ok s hp
      rw [hp] at htr
      cases htr
      exact hmem
  | tick => exact transact_tick_mem

end Transactions

/-- Settles O45: Memory's cells and their reset value from `memRead`, and its frame from the write rows
of the instructions and from the ends of the transactions. -/
theorem memoryIsWrittenOnlyByStores : Obligations.MemoryIsWrittenOnlyByStores := by
  refine ⟨fun s a => ?_, fun a ha => ?_, fun i s t h hb hs => ?_, fun s op => ?_⟩
  · by_cases ha : a < Config.memSize
    · exact ⟨fun _ => ha, fun _ => ⟨_, if_pos ha⟩⟩
    · simp [State.memRead, ha]
  · exact if_pos ha
  · exact exec_keeps_part h (mem_notMem_writes hb hs) (by simp)
  · exact transact_keeps_mem

/-! ### A state with another call stack (10_state.md R18) -/

/-- `s` with the call stack `stk` and the stack pointer `sp` in place of its own. -/
def State.withStack (stk : Vector Word 16) (sp : Fin 17) (s : State) : State :=
  { s with stack := stk, sp := sp }

section OtherStack

variable (stk : Vector Word 16) (sp : Fin 17)

/-- A block of registers is written whatever the stack holds. -/
theorem State.setRegs_withStack (s : State) (k : Nat) (bs : List Byte) :
    (s.withStack stk sp).setRegs k bs = (s.setRegs k bs).withStack stk sp := by
  induction bs generalizing s k with
  | nil => rfl
  | cons b bs ih => exact ih (s.setReg _ b) (k + 1)

theorem waitKeyWith_withStack (keys : Word) (x : Nibble) (s : State) :
    waitKeyWith keys x (s.withStack stk sp) = (waitKeyWith keys x s).withStack stk sp := by
  unfold waitKeyWith
  split <;> rfl

/-- The check of a span and the error it raises do not depend on the stack. -/
theorem State.settle_guardSpan_withStack (first count : Nat) (s t : State) :
    (s.withStack stk sp).settle (guardSpan first count (t.withStack stk sp))
      = (s.settle (guardSpan first count t)).withStack stk sp := by
  simp only [State.settle_guardSpan]
  split <;> rfl

/-- Every instruction but CALL and RET does the same whatever the stack holds. -/
theorem exec_withStack {i : Instr} (hr : i ≠ .ret) (hc : ∀ nnn, i ≠ .call nnn) (s : State) :
    ∃ t, exec i s = .next t ∧ exec i (s.withStack stk sp) = .next (t.withStack stk sp) := by
  cases i with
  | ret => exact absurd rfl hr
  | call nnn => exact absurd rfl (hc nnn)
  | ldVxK x => exact ⟨_, rfl, congrArg _ (waitKeyWith_withStack stk sp _ x s.sampleKeys.2)⟩
  | drw x y n =>
    exact ⟨_, rfl, congrArg _ (State.settle_guardSpan_withStack stk sp _ _ s (s.drawSprite x y _))⟩
  | ldB x =>
    exact ⟨_, rfl, congrArg _ (State.settle_guardSpan_withStack stk sp _ _ s { s with mem := _ })⟩
  | storeRegs x =>
    exact ⟨_, rfl, congrArg _ (State.settle_guardSpan_withStack stk sp _ _ s { s with mem := _, i := _ })⟩
  | loadRegs x =>
    refine ⟨_, rfl, ?_⟩
    rw [← State.settle_guardSpan_withStack, ← State.setRegs_withStack]
    rfl
  | _ => exact ⟨_, rfl, rfl⟩

theorem State.memWrite_withStack (s : State) (a : Nat) (b : Byte) :
    (s.withStack stk sp).memWrite a b = (s.memWrite a b).map (State.withStack stk sp) := by
  unfold State.memWrite
  split <;> rfl

theorem State.load_withStack (s : State) (bs : List Byte) :
    (s.withStack stk sp).load bs = (s.load bs).map (State.withStack stk sp) := by
  unfold State.load
  split <;> rfl

/-- A read is answered alike, and where it raises, it leaves the same but for the stack. -/
theorem State.replyValue_withStack (s : State) (r : Except ErrorRecord Reply) :
    (s.withStack stk sp).replyValue r
      = ((s.replyValue r).1.withStack stk sp, (s.replyValue r).2) := by
  cases r <;> rfl

/-- A mutator that does the same whatever the stack holds ends the same. -/
theorem State.replyState_withStack (s : State) (r : Except ErrorRecord State) :
    (s.withStack stk sp).replyState (quietly (r.map (State.withStack stk sp)))
      = ((s.replyState (quietly r)).1.withStack stk sp, (s.replyState (quietly r)).2) := by
  cases hs : s.fault with
  | some e => rw [State.replyState_of_halted hs, State.replyState_of_halted (by exact hs)]
  | none =>
    cases r with
    | ok t => rw [quietly, State.replyState_of_ok hs]; exact State.replyState_of_ok (by exact hs) _
    | error e =>
      rw [quietly, State.replyState_of_error hs]; exact State.replyState_of_error (by exact hs) _

/-- The host's byte accesses and load do the same whatever the stack holds. -/
theorem transact_withStack (s : State) {a : Nat} {b : Byte} {bs : List Byte} {op : HostOp}
    (hop : op ∈ [.getByte a, .setByte a b, .load bs]) :
    transact (s.withStack stk sp) op
      = ((transact s op).1.withStack stk sp, (transact s op).2) := by
  simp only [List.mem_cons, List.not_mem_nil, or_false] at hop
  obtain rfl | rfl | rfl := hop
  · exact State.replyValue_withStack stk sp s _
  · rw [transact, State.memWrite_withStack]; exact State.replyState_withStack stk sp s _
  · rw [transact, State.load_withStack]; exact State.replyState_withStack stk sp s _

end OtherStack

/-- The host's byte accesses and load leave the stack as it is. -/
theorem transact_keeps_stack (s : State) {a : Nat} {b : Byte} {bs : List Byte} {op : HostOp}
    (hop : op ∈ [.getByte a, .setByte a b, .load bs]) :
    (transact s op).1.stack = s.stack ∧ (transact s op).1.sp = s.sp := by
  rw [← Prod.mk.injEq]
  have hraise (e : ErrorRecord) : ((s.raise e).stack, (s.raise e).sp) = (s.stack, s.sp) := rfl
  simp only [List.mem_cons, List.not_mem_nil, or_false] at hop
  obtain rfl | rfl | rfl := hop
  · exact State.replyValue_keeps (f := fun t => (t.stack, t.sp)) hraise _
  · exact State.replyState_quietly_keeps (f := fun t => (t.stack, t.sp)) hraise fun t ht => by
      rw [State.memWrite_ok ht]
  · exact State.replyState_quietly_keeps (f := fun t => (t.stack, t.sp)) hraise fun t ht => by
      rw [State.load_ok ht]

/-- Settles O46: the frame of the stack from the write rows, its independence by comparing a run with the
run from the same state under another stack, and CALL and RET through push and pop. -/
theorem stackIsReachedOnlyByPushAndPop : Obligations.StackIsReachedOnlyByPushAndPop := by
  refine ⟨fun i s t h hr hc => ?_, fun i s t stk sp h hr hc => ?_, fun nnn s t h ht => ?_,
    fun s t h ht => pop_of_exec_ret_running h ht, fun s stk sp => ⟨fun a => rfl, ?_, ?_, ?_⟩⟩
  · exact exec_keeps_part h (stack_notMem_writes hr hc) (by simp)
  · obtain ⟨u, hu, hother⟩ := exec_withStack stk sp hr hc s
    obtain rfl : u = t := Host.Outcome.next.inj (hu.symm.trans h)
    exact hother
  · obtain rfl : s.settle (s.push (zextImm nnn)) = t := Host.Outcome.next.inj h
    exact ⟨_, State.eq_ok_of_settle_running ht⟩
  · exact State.fetch_congr rfl rfl
  · exact State.memWrite_withStack stk sp s
  · exact fun a b bs op hop => ⟨transact_withStack stk sp s hop, transact_keeps_stack s hop⟩

end Sys2Proof.Machine
end

section
/-! PROOFS. Memory (20_memory.md): what MemRead and MemWrite answer on either side of its end (R42, R43). -/

namespace Sys2Proof.Machine

section MemoryAccess

variable (s : State) {a : Nat} (b : Byte)

/-- A read of a cell answers its byte (R42). -/
theorem State.memRead_of_lt (h : a < Config.memSize) : s.memRead a = .ok (s.mem.read a) := if_pos h

/-- A read past the end raises OutOfBounds (R42). -/
theorem State.memRead_of_le (h : Config.memSize ≤ a) : s.memRead a = .error (.outOfBounds a) :=
  if_neg (Nat.not_lt.mpr h)

/-- A write of a cell answers the state with that cell written (R43). -/
theorem State.memWrite_of_lt (h : a < Config.memSize) :
    s.memWrite a b = .ok { s with mem := s.mem.write a b } := if_pos h

/-- A write past the end raises OutOfBounds (R43). -/
theorem State.memWrite_of_le (h : Config.memSize ≤ a) : s.memWrite a b = .error (.outOfBounds a) :=
  if_neg (Nat.not_lt.mpr h)

/-- A cell just written is read back. -/
theorem State.memRead_write_same (h : a < Config.memSize) :
    State.memRead { s with mem := s.mem.write a b } a = .ok b := by
  rw [State.memRead_of_lt _ h, Memory.read_write_same]

/-- A byte written changes its own cell alone: it is a block of one byte. -/
theorem MemBut.write (a : Nat) : MemBut a 1 s { s with mem := s.mem.write a b } :=
  MemBut.writeBlock s a [b]

end MemoryAccess

/-- Settles O49: past the end both accesses raise; below it the read answers the byte, and the write
answers the state with that cell written, by the rules of MemRead, MemWrite and `Memory.write`. -/
theorem memReadAndMemWrite : Obligations.MemReadAndMemWrite := by
  intro s a b
  refine ⟨fun hge => ⟨s.memRead_of_le hge, s.memWrite_of_le b hge⟩,
    fun hlt => ⟨s.memRead_of_lt hlt, _, s.memWrite_of_lt b hlt, ?readBack, ?otherBytes, ?frame⟩⟩
  case readBack => exact s.memRead_write_same b hlt
  case otherBytes => exact MemBut.write s b a
  case frame => exact SameBut.mem s _

end Sys2Proof.Machine
end

section
/-! PROOFS. The encoding (30_encoding.md): the dispatch table's masks and matches select exactly the
instruction the decoder gives (R67). -/

namespace Sys2Proof.Machine

/-! ### The dispatch table's rows (30_encoding.md R67) -/

/-- The instruction of the row of `i` with the operands its format takes from the fields (R62). -/
def withOperandsOf : Instr → Fields → Instr
  | .cls, _ => .cls
  | .ret, _ => .ret
  | .jp _, f => .jp f.nnn
  | .call _, f => .call f.nnn
  | .seImm _ _, f => .seImm f.x f.kk
  | .sneImm _ _, f => .sneImm f.x f.kk
  | .seReg _ _, f => .seReg f.x f.y
  | .ldImm _ _, f => .ldImm f.x f.kk
  | .addImm _ _, f => .addImm f.x f.kk
  | .ldReg _ _, f => .ldReg f.x f.y
  | .orReg _ _, f => .orReg f.x f.y
  | .andReg _ _, f => .andReg f.x f.y
  | .xorReg _ _, f => .xorReg f.x f.y
  | .addReg _ _, f => .addReg f.x f.y
  | .sub _ _, f => .sub f.x f.y
  | .shr _ _, f => .shr f.x f.y
  | .subn _ _, f => .subn f.x f.y
  | .shl _ _, f => .shl f.x f.y
  | .sneReg _ _, f => .sneReg f.x f.y
  | .ldI _, f => .ldI f.nnn
  | .jpV0 _, f => .jpV0 f.nnn
  | .rnd _ _, f => .rnd f.x f.kk
  | .drw _ _ _, f => .drw f.x f.y f.n
  | .skp _, f => .skp f.x
  | .sknp _, f => .sknp f.x
  | .ldVxDt _, f => .ldVxDt f.x
  | .ldVxK _, f => .ldVxK f.x
  | .ldDtVx _, f => .ldDtVx f.x
  | .ldStVx _, f => .ldStVx f.x
  | .addI _, f => .addI f.x
  | .ldF _, f => .ldF f.x
  | .ldB _, f => .ldB f.x
  | .storeRegs _, f => .storeRegs f.x
  | .loadRegs _, f => .loadRegs f.x

/-- Operands do not move an instruction to another row. -/
@[simp] theorem row_withOperandsOf (i : Instr) (f : Fields) : (withOperandsOf i f).row = i.row := by
  cases i <;> rfl

/-- One instruction for each row of the dispatch table, in the table's order (R67). -/
def tableInstrs : List Instr :=
  [.cls, .ret, .jp 0, .call 0, .seImm 0 0, .sneImm 0 0, .seReg 0 0, .ldImm 0 0, .addImm 0 0,
   .ldReg 0 0, .orReg 0 0, .andReg 0 0, .xorReg 0 0, .addReg 0 0, .sub 0 0, .shr 0 0, .subn 0 0,
   .shl 0 0, .sneReg 0 0, .ldI 0, .jpV0 0, .rnd 0 0, .drw 0 0 0, .skp 0, .sknp 0, .ldVxDt 0,
   .ldVxK 0, .ldDtVx 0, .ldStVx 0, .addI 0, .ldF 0, .ldB 0, .storeRegs 0, .loadRegs 0]

theorem opcodeRows_eq_map_row : opcodeRows = tableInstrs.map Instr.row := rfl

theorem row_mem_opcodeRows (i : Instr) : i.row ∈ opcodeRows := by
  cases i <;> simp [Instr.row, opcodeRows]

/-! ### A word of a row decodes to its instruction -/

/-- The words of an instruction's row decode to that row's instruction, with the operands of the word:
the match fixes the header and, for headers 0x0, 0x8, 0xE and 0xF, the second-level key (R65). -/
theorem encodedAs_row (i : Instr) : EncodedAs i.row.1 i.row.2 (withOperandsOf i) := by
  cases i with dsimp only [Instr.row]
  | cls | ret => exact .header_n fun f hh hn => by rw [dispatch, hh]; simp only [dispatch0, hn]; rfl
  | ldReg | orReg | andReg | xorReg | addReg | sub | shr | subn | shl =>
    exact .header_n fun f hh hn => by rw [dispatch, hh]; simp only [dispatch8, hn]; rfl
  | skp | sknp =>
    exact .header_kk fun f hh hy hn => by rw [dispatch, hh]; simp only [dispatchE, Fields.kk, hy, hn]; rfl
  | ldVxDt | ldVxK | ldDtVx | ldStVx | addI | ldF | ldB | storeRegs | loadRegs =>
    exact .header_kk fun f hh hy hn => by rw [dispatch, hh]; simp only [dispatchF, Fields.kk, hy, hn]; rfl
  | _ => exact .header fun f hh => by rw [dispatch, hh]; rfl

/-! ### A word that decodes to an instruction lies in its row -/

section

variable {w c : Word} {i : Instr} {h y n : Nibble}

/-- A word with the header of a row lies in it, where the row's mask is the header's. -/
theorem and_row_of_header (hr : i.row = (0xF000, c)) (hc : Fields.ofWord c = ⟨h, 0, 0, 0⟩)
    (hh : (Fields.ofWord w).h.toNat = h.toNat) : w &&& i.row.1 = i.row.2 := by
  rw [hr]
  exact (Fields.mask_header w c).2 (by rw [hc, BitVec.eq_of_toNat_eq hh])

/-- A word with the header and the low nibble of a row lies in it, where the row's mask is theirs. -/
theorem and_row_of_header_n (hr : i.row = (0xF00F, c)) (hc : Fields.ofWord c = ⟨h, 0, 0, n⟩)
    (hh : (Fields.ofWord w).h.toNat = h.toNat) (hn : (Fields.ofWord w).n.toNat = n.toNat) :
    w &&& i.row.1 = i.row.2 := by
  rw [hr]
  exact (Fields.mask_header_n w c).2 (by rw [hc, BitVec.eq_of_toNat_eq hh, BitVec.eq_of_toNat_eq hn])

/-- A word with the header and the low byte of a row lies in it, where the row's mask is theirs. -/
theorem and_row_of_header_kk (hr : i.row = (0xF0FF, c)) (hc : Fields.ofWord c = ⟨h, 0, y, n⟩)
    (hh : (Fields.ofWord w).h.toNat = h.toNat)
    (hkk : (Fields.ofWord w).kk.toNat = 16 * y.toNat + n.toNat) : w &&& i.row.1 = i.row.2 := by
  rw [Fields.toNat_kk] at hkk
  have hy : (Fields.ofWord w).y = y := by bv_omega
  have hn : (Fields.ofWord w).n = n := by bv_omega
  rw [hr]
  exact (Fields.mask_header_kk w c).2 (by rw [hc, BitVec.eq_of_toNat_eq hh, hy, hn])

end

/-! The second-level tables, then the dispatch: where the header has a second-level key, the row is
found by that key, else by the header alone (R65). -/

section

variable {w : Word} {i : Instr}

theorem and_row_of_dispatch0 (hh : (Fields.ofWord w).h.toNat = 0x0)
    (h : dispatch0 (Fields.ofWord w) = some i) : w &&& i.row.1 = i.row.2 := by
  unfold dispatch0 at h
  split at h <;> cases h <;> exact and_row_of_header_n rfl rfl hh ‹_›

theorem and_row_of_dispatch8 (hh : (Fields.ofWord w).h.toNat = 0x8)
    (h : dispatch8 (Fields.ofWord w) = some i) : w &&& i.row.1 = i.row.2 := by
  unfold dispatch8 at h
  split at h <;> cases h <;> exact and_row_of_header_n rfl rfl hh ‹_›

theorem and_row_of_dispatchE (hh : (Fields.ofWord w).h.toNat = 0xE)
    (h : dispatchE (Fields.ofWord w) = some i) : w &&& i.row.1 = i.row.2 := by
  unfold dispatchE at h
  split at h <;> cases h <;> exact and_row_of_header_kk rfl rfl hh ‹_›

theorem and_row_of_dispatchF (hh : (Fields.ofWord w).h.toNat = 0xF)
    (h : dispatchF (Fields.ofWord w) = some i) : w &&& i.row.1 = i.row.2 := by
  unfold dispatchF at h
  split at h <;> cases h <;> exact and_row_of_header_kk rfl rfl hh ‹_›

/-- A word lies in the row of the instruction its fields dispatch to. -/
theorem and_row_of_dispatch (h : dispatch (Fields.ofWord w) = some i) :
    w &&& i.row.1 = i.row.2 := by
  unfold dispatch at h
  split at h
  case h_1 hh => exact and_row_of_dispatch0 hh h
  case h_9 hh => exact and_row_of_dispatch8 hh h
  case h_15 hh => exact and_row_of_dispatchE hh h
  case h_16 hh => exact and_row_of_dispatchF hh h
  case h_17 => cases h
  all_goals
    cases h
    exact and_row_of_header rfl rfl ‹_›

theorem dispatch_of_decode (h : decode w = .ok i) : dispatch (Fields.ofWord w) = some i := by
  unfold decode at h
  split at h
  · next j hj => cases h; exact hj
  · cases h

/-- A word decodes to an instruction exactly when it lies in its row and has its operands (R67). -/
theorem decode_eq_ok_iff :
    decode w = .ok i ↔ w &&& i.row.1 = i.row.2 ∧ withOperandsOf i (Fields.ofWord w) = i := by
  constructor
  · intro h
    have hrow : w &&& i.row.1 = i.row.2 := and_row_of_dispatch (dispatch_of_decode h)
    exact ⟨hrow, Except.ok.inj ((encodedAs_row i w hrow).symm.trans h)⟩
  · rintro ⟨hrow, hops⟩
    rw [encodedAs_row i w hrow, hops]

end

/-- A word of a row of the table decodes to an instruction of that row, so no word lies in two rows. -/
theorem exists_decode_of_mem_opcodeRows {w : Word} {r : Word × Word} (hr : r ∈ opcodeRows)
    (hw : w &&& r.1 = r.2) : ∃ i, decode w = .ok i ∧ i.row = r := by
  rw [opcodeRows_eq_map_row] at hr
  obtain ⟨i, -, rfl⟩ := List.mem_map.1 hr
  exact ⟨_, encodedAs_row i w hw, row_withOperandsOf i _⟩

/-- Settles O3: each row's encoding is the one of its instructions, and the converse is the inversion of
the two-level dispatch. -/
theorem wordsMatchTheirRow : Obligations.WordsMatchTheirRow :=
  ⟨⟨encodedAs_row .cls, encodedAs_row .ret, encodedAs_row (.jp 0), encodedAs_row (.call 0),
    encodedAs_row (.seImm 0 0), encodedAs_row (.sneImm 0 0), encodedAs_row (.seReg 0 0),
    encodedAs_row (.ldImm 0 0), encodedAs_row (.addImm 0 0), encodedAs_row (.ldReg 0 0),
    encodedAs_row (.orReg 0 0), encodedAs_row (.andReg 0 0), encodedAs_row (.xorReg 0 0),
    encodedAs_row (.addReg 0 0), encodedAs_row (.sub 0 0), encodedAs_row (.shr 0 0),
    encodedAs_row (.subn 0 0), encodedAs_row (.shl 0 0), encodedAs_row (.sneReg 0 0),
    encodedAs_row (.ldI 0), encodedAs_row (.jpV0 0), encodedAs_row (.rnd 0 0),
    encodedAs_row (.drw 0 0 0), encodedAs_row (.skp 0), encodedAs_row (.sknp 0),
    encodedAs_row (.ldVxDt 0), encodedAs_row (.ldVxK 0), encodedAs_row (.ldDtVx 0),
    encodedAs_row (.ldStVx 0), encodedAs_row (.addI 0), encodedAs_row (.ldF 0),
    encodedAs_row (.ldB 0), encodedAs_row (.storeRegs 0), encodedAs_row (.loadRegs 0)⟩,
   fun _ _ h => (decode_eq_ok_iff.1 h).1, fun _ _ => exists_decode_of_mem_opcodeRows,
   row_mem_opcodeRows, rfl⟩

end Sys2Proof.Machine
end

section
/-! PROOFS. Control transfer (40_flow.md): the two jumps (R81, R87), the fetch at the end of Memory that
follows them, and the jump to itself. -/

namespace Sys2Proof.Machine

/-! ### Where the jumps go -/

theorem exec_jp (nnn : Imm12) (s : State) : exec (.jp nnn) s = .next { s with pc := zextImm nnn } := rfl

theorem exec_jpV0 (nnn : Imm12) (s : State) :
    exec (.jpV0 nnn) s = .next { s with pc := zextImm nnn + zextByte (s.reg 0) } := rfl

/-- A 12-bit and an 8-bit operand have a sum below 65536, so the target of `JP V0, nnn` does not wrap. -/
theorem toNat_zextImm_add_zextByte (nnn : Imm12) (b : Byte) :
    (zextImm nnn + zextByte b).toNat = nnn.toNat + b.toNat := by
  have := nnn.isLt
  have := b.isLt
  rw [BitVec.toNat_add, toNat_zextImm, toNat_zextByte]
  omega

theorem eq_zextImm_of_toNat_eq {a : Word} {nnn : Imm12} (h : a.toNat = nnn.toNat) : a = zextImm nnn :=
  BitVec.eq_of_toNat_eq (h.trans (toNat_zextImm nnn).symm)

/-! ### The cycle of a step that runs, and of one that cannot fetch (10_state.md R24) -/

/-- A fetch whose second byte, or both, lie past the end of Memory raises at the first missing byte. -/
theorem State.fetch_of_end {s : State} (h : 4095 ≤ s.pc.toNat) :
    s.fetch = .error (.outOfBounds (max s.pc.toNat 4096)) := by
  have hsize : Config.memSize = 4096 := rfl
  rcases Nat.eq_or_lt_of_le h with hlast | hpast
  · have hhi : s.memRead s.pc.toNat = .ok (s.mem.read s.pc.toNat) := s.memRead_of_lt (by omega)
    have hlo : s.memRead (s.pc.toNat + 1) = .error (.outOfBounds (s.pc.toNat + 1)) :=
      s.memRead_of_le (by omega)
    have hmax : max s.pc.toNat 4096 = s.pc.toNat + 1 := by omega
    simp only [State.fetch, hhi, hlo, hmax]
  · have hhi : s.memRead s.pc.toNat = .error (.outOfBounds s.pc.toNat) := s.memRead_of_le hpast
    have hmax : max s.pc.toNat 4096 = s.pc.toNat := Nat.max_eq_left hpast
    simp only [State.fetch, hhi, hmax]

/-- At the last byte of Memory the first byte is read and the second is missing. -/
theorem State.fetch_of_last_byte {s : State} (h : s.pc.toNat = 4095) :
    s.fetch = .error (.outOfBounds 4096) := by
  rw [State.fetch_of_end h.ge, h, Nat.max_eq_right (by decide)]

/-- A step whose instruction does not raise is that instruction after the advance of PC. -/
theorem step_of_exec_running {s t : State} {w : Word} {i : Instr} (hs : s.Running)
    (hw : s.fetch = .ok w) (hi : decode w = .ok i) (hexec : exec i s.advancePc = .next t)
    (ht : t.Running) : step s = .next t := by
  have hs' : s.fault = none := hs
  have hexecute : execute w s.advancePc = .next t :=
    (execute_of_decode (s := s.advancePc) hs hi).trans hexec
  simp only [step, cycle, hs', hw, hexecute, State.preciseAnswer, State.precise_of_running ht]

/-! ### The jump to itself (70_reset_and_hazards.md R225) -/

theorem decode_encode_jp (nnn : Imm12) : decode (encode (.jp nnn)) = .ok (.jp nnn) :=
  decode_of_dispatch (by rw [encode, Fields.ofWord_toWord]; exact (Laws.Dispatch.jp nnn).2)

/-- A jump to its own address undoes the advance of PC, so the step changes nothing at all. -/
theorem step_of_jp_self {s : State} {nnn : Imm12} (hs : s.Running) (hpc : s.pc = zextImm nnn)
    (hw : s.fetch = .ok (encode (.jp nnn))) : step s = .next s := by
  have hback : exec (.jp nnn) s.advancePc = .next s := by
    rw [exec_jp, ← hpc]
    rfl
  exact step_of_exec_running hs hw (decode_encode_jp nnn) hback hs

/-! ### The obligations -/

/-- Settles O16: the encoding is the row's, the frame that of a write to PC, the failing fetch the one at
the end of Memory, and the loop the self-jump's fixed point of `step`. -/
theorem jumpSetsPc : Obligations.JumpSetsPc := by
  refine ⟨encodedAs_row (.jp 0), fun nnn s => ⟨_, exec_jp nnn s, toNat_zextImm nnn,
    SameBut.pc s _, fun hlast => ?failingFetch, fun hs hpc hw => ?selfJump⟩⟩
  case failingFetch => exact State.fetch_of_last_byte ((toNat_zextImm nnn).trans hlast)
  case selfJump => exact ⟨s, step_of_jp_self hs (eq_zextImm_of_toNat_eq hpc) hw, rfl⟩

/-- Settles O17: the sum does not wrap, and the rest is as for `JP nnn`. -/
theorem jumpWithOffsetAddsV0 : Obligations.JumpWithOffsetAddsV0 :=
  ⟨encodedAs_row (.jpV0 0), fun nnn s => ⟨_, exec_jpV0 nnn s,
    toNat_zextImm_add_zextByte nnn (s.reg 0), SameBut.pc s _, State.fetch_of_end⟩⟩

end Sys2Proof.Machine
end

section
/-! PROOFS. Register-immediate (41_immediate.md): `LD Vx, kk` and the value read back (R100). -/

namespace Sys2Proof.Machine

theorem exec_ldImm (x : Nibble) (kk : Byte) (s : State) : exec (.ldImm x kk) s = .next (s.setReg x kk) := rfl

/-- A register reads back the byte just written to it; VF is no exception. -/
theorem State.reg_setReg_self (s : State) (x : Nibble) (b : Byte) : (s.setReg x b).reg x = b :=
  (s.reg_setReg x x b).trans (if_pos rfl)

/-- Settles O21: the encoding is the row's, and the rest are the read-back and the frame of a write to one
register. -/
theorem loadImmediateRoundTrips : Obligations.LoadImmediateRoundTrips :=
  ⟨encodedAs_row (.ldImm 0 0), fun x kk s => ⟨_, exec_ldImm x kk s,
    s.reg_setReg_self x kk, RegsBut.setReg x s kk, SameBut.setReg s x kk⟩⟩

end Sys2Proof.Machine
end

section
/-! PROOFS. Register-register (42_alu.md): the copy (R111) and the three bitwise operations (R112 to
R114). Each is one write to V[x], which is V[F] only where x is F. -/

namespace Sys2Proof.Machine

/-! ### What the four instructions write -/

theorem exec_ldReg (x y : Nibble) (s : State) : exec (.ldReg x y) s = .next (s.setReg x (s.reg y)) := rfl

theorem exec_orReg (x y : Nibble) (s : State) :
    exec (.orReg x y) s = .next (s.setReg x (s.reg x ||| s.reg y)) := rfl

theorem exec_andReg (x y : Nibble) (s : State) :
    exec (.andReg x y) s = .next (s.setReg x (s.reg x &&& s.reg y)) := rfl

theorem exec_xorReg (x y : Nibble) (s : State) :
    exec (.xorReg x y) s = .next (s.setReg x (s.reg x ^^^ s.reg y)) := rfl

/-- A write to V[x] of a byte whose bits are `op` of the bits of V[x] and V[y] leaves those bits there,
with the frame of a write to one register. -/
theorem State.setReg_bitwise {op : Bool → Bool → Bool} {s : State} {x y : Nibble} {b : Byte}
    (hb : ∀ k, b.getLsbD k = op ((s.reg x).getLsbD k) ((s.reg y).getLsbD k)) :
    (∀ k, k < 8 →
      ((s.setReg x b).reg x).getLsbD k = op ((s.reg x).getLsbD k) ((s.reg y).getLsbD k)) ∧
    RegsBut x s (s.setReg x b) ∧ SameBut [.regs] s (s.setReg x b) := by
  refine ⟨fun k _ => ?_, RegsBut.setReg x s b, SameBut.setReg s x b⟩
  rw [State.reg_setReg_self, hb]

/-! ### The obligations -/

/-- Settles O24: the encoding is the row's, and the rest are the read-back and the frame of a write to one
register. -/
theorem copyRegister : Obligations.CopyRegister :=
  ⟨encodedAs_row (.ldReg 0 0), fun x y s => ⟨_, exec_ldReg x y s,
    s.reg_setReg_self x (s.reg y), RegsBut.setReg x s (s.reg y), SameBut.setReg s x (s.reg y)⟩⟩

/-- Settles O25: the encodings are the rows', and each operation writes to V[x] a byte that is its Boolean
operation bit by bit. -/
theorem logicIsBitwise : Obligations.LogicIsBitwise := by
  refine ⟨⟨encodedAs_row (.orReg 0 0), encodedAs_row (.andReg 0 0), encodedAs_row (.xorReg 0 0)⟩,
    fun x y s => ⟨?or, ?and, ?xor⟩⟩
  case or => exact ⟨_, exec_orReg x y s, State.setReg_bitwise fun _ => BitVec.getLsbD_or⟩
  case and => exact ⟨_, exec_andReg x y s, State.setReg_bitwise fun _ => BitVec.getLsbD_and⟩
  case xor => exact ⟨_, exec_xorReg x y s, State.setReg_bitwise fun _ => BitVec.getLsbD_xor⟩

end Sys2Proof.Machine
end

section
/-! PROOFS. Index register and memory (43_index_memory.md): the load of I (R130), and the decimal digits
of a byte (R134). -/

namespace Sys2Proof.Machine

/-! ### The load of I (R130) -/

theorem exec_ldI (nnn : Imm12) (s : State) : exec (.ldI nnn) s = .next { s with i := zextImm nnn } := rfl

/-- Settles O29: the encoding is the row's, the value the zero-extended operand, and the frame that of a
write to I. -/
theorem loadIndexSetsI : Obligations.LoadIndexSetsI :=
  ⟨encodedAs_row (.ldI 0), fun nnn s => ⟨_, exec_ldI nnn s, toNat_zextImm nnn, SameBut.index s _⟩⟩

/-! ### The decimal digits of a byte (R134) -/

/-- A number is made up of its ones, its tens and its hundreds, which hold all that is above the tens. -/
theorem hundreds_add_tens_add_ones (n : Nat) : 100 * (n / 100) + 10 * (n / 10 % 10) + n % 10 = n := by
  omega

theorem toNat_ofNat_byte {n : Nat} (h : n < 256) : (BitVec.ofNat 8 n).toNat = n :=
  (BitVec.toNat_ofNat n 8).trans (Nat.mod_eq_of_lt h)

/-- Each digit of `bcd` fits in its byte, so as numbers they are the quotients and remainders. -/
theorem exists_bcd_eq (v : Byte) : ∃ h t o : Byte, bcd v = [h, t, o] ∧
    h.toNat = v.toNat / 100 ∧ t.toNat = v.toNat / 10 % 10 ∧ o.toNat = v.toNat % 10 := by
  have hv := v.isLt
  exact ⟨_, _, _, rfl, toNat_ofNat_byte (by omega), toNat_ofNat_byte (by omega),
    toNat_ofNat_byte (by omega)⟩

/-- Settles O32: the digits are the quotients and remainders of the value, a byte has at most two
hundreds, and the digits of any number make it up. -/
theorem bcdDigitsMakeUpTheValue : Obligations.BcdDigitsMakeUpTheValue := by
  intro v
  obtain ⟨h, t, o, hbcd, hh, ht, ho⟩ := exists_bcd_eq v
  have hv := v.isLt
  have hsum : v.toNat = 100 * h.toNat + 10 * t.toNat + o.toNat := by
    rw [hh, ht, ho, hundreds_add_tens_add_ones]
  exact ⟨h, t, o, hbcd, hh, ht, ho, by omega, by omega, by omega, hsum⟩

end Sys2Proof.Machine
end

section
/-! PROOFS. Display (44_display.md): the clear (R151), after which every pixel is off. -/

namespace Sys2Proof.Machine

/-! ### The clear (R151) -/

theorem exec_cls (s : State) : exec .cls s = .next { s with display := Vector.replicate 32 0 } := rfl

/-- Settles O38: the encoding is the row's, every pixel of a display of zero rows is off, and the frame is
that of a write to the display. -/
theorem clearSwitchesAllOff : Obligations.ClearSwitchesAllOff :=
  ⟨encodedAs_row .cls, fun s => ⟨_, exec_cls s,
    fun j _ => Display.pixel_off (j % 64) (j / 64), SameBut.display s _⟩⟩

end Sys2Proof.Machine
end

section
/-! PROOFS. Timers and keypad (45_timer_keypad.md): the timer transfers (R163, R165, R166), and that no
instruction reads ST back (R166). -/

namespace Sys2Proof.Machine

/-! ### The timer transfers (R163, R165, R166) -/

theorem exec_ldVxDt (x : Nibble) (s : State) : exec (.ldVxDt x) s = .next (s.setReg x s.dt) := rfl

theorem exec_ldDtVx (x : Nibble) (s : State) : exec (.ldDtVx x) s = .next { s with dt := s.reg x } := rfl

theorem exec_ldStVx (x : Nibble) (s : State) : exec (.ldStVx x) s = .next { s with st := s.reg x } := rfl

/-- The tick of a running engine takes one from a DT that is not 0 and leaves a DT of 0 (60_exceptions.md
R196). -/
theorem exists_tick_dt {s : State} (h : s.Running) :
    ∃ u, tick s = .next u ∧ u.dt.toNat = s.dt.toNat - 1 :=
  ⟨_, tick_of_running h, toNat_countDown s.dt⟩

/-- Settles O43: the encodings are the rows', the values and frames those of a write to one register or one
timer, and the first decrement that of the tick. -/
theorem timerTransfers : Obligations.TimerTransfers := by
  refine ⟨⟨encodedAs_row (.ldVxDt 0), encodedAs_row (.ldDtVx 0), encodedAs_row (.ldStVx 0)⟩,
    fun x s => ⟨?readDt, ?writeDt, ?writeSt⟩⟩
  case readDt =>
    exact ⟨_, exec_ldVxDt x s, s.reg_setReg_self x s.dt, RegsBut.setReg x s s.dt, SameBut.setReg s x s.dt⟩
  case writeDt =>
    exact ⟨_, exec_ldDtVx x s, rfl, SameBut.dt s _, exists_tick_dt (s := { s with dt := s.reg x })⟩
  case writeSt => exact ⟨_, exec_ldStVx x s, rfl, SameBut.st s _⟩

/-! ### A state with another sound timer (R166) -/

/-- `s` with the sound timer `b` in place of its own. -/
def State.withSt (b : Byte) (s : State) : State := { s with st := b }

section OtherSoundTimer

variable (b : Byte)

/-- A block of registers is written whatever ST holds. -/
theorem State.setRegs_withSt (s : State) (k : Nat) (bs : List Byte) :
    (s.withSt b).setRegs k bs = (s.setRegs k bs).withSt b := by
  induction bs generalizing s k with
  | nil => rfl
  | cons c cs ih => exact ih (s.setReg _ c) (k + 1)

theorem waitKeyWith_withSt (keys : Word) (x : Nibble) (s : State) :
    waitKeyWith keys x (s.withSt b) = (waitKeyWith keys x s).withSt b := by
  unfold waitKeyWith
  split <;> rfl

/-- The check of a span and the error it raises do not depend on ST. -/
theorem State.settle_guardSpan_withSt (first count : Nat) (s t : State) :
    (s.withSt b).settle (guardSpan first count (t.withSt b))
      = (s.settle (guardSpan first count t)).withSt b := by
  simp only [State.settle_guardSpan]
  split <;> rfl

theorem State.settle_push_withSt (s : State) (a : Word) :
    (s.withSt b).settle ((s.withSt b).push a) = (s.settle (s.push a)).withSt b := by
  by_cases h : s.sp.val < 16
  · rw [State.push_of_room s a h, State.push_of_room (s.withSt b) a h]; rfl
  · have hfull : s.sp = 16 := by omega
    rw [State.push_of_full s a hfull, State.push_of_full (s.withSt b) a hfull]; rfl

theorem State.pop_withSt (s : State) :
    (s.withSt b).pop = s.pop.map fun au => (au.1, au.2.withSt b) := by
  by_cases h : 0 < s.sp.val
  · rw [State.pop_of_entry s h, State.pop_of_entry (s.withSt b) h]; rfl
  · have hempty : s.sp = 0 := by omega
    rw [State.pop_of_empty s hempty, State.pop_of_empty (s.withSt b) hempty]; rfl

/-- Every instruction but `LD ST, Vx` does the same whatever ST holds. -/
theorem exec_withSt {i : Instr} (hi : ∀ x, i ≠ .ldStVx x) (s : State) :
    ∃ t, exec i s = .next t ∧ exec i (s.withSt b) = .next (t.withSt b) := by
  cases i with
  | ldStVx x => exact absurd rfl (hi x)
  | ret =>
    have hother := State.pop_withSt b s
    cases hp : s.pop with
    | error e =>
      rw [hp] at hother
      exact ⟨_, exec_ret_of_pop_error hp, exec_ret_of_pop_error hother⟩
    | ok au =>
      rw [hp] at hother
      exact ⟨_, exec_ret_of_pop_ok hp, exec_ret_of_pop_ok hother⟩
  | call nnn => exact ⟨_, rfl, congrArg _ (State.settle_push_withSt b s (zextImm nnn))⟩
  | ldVxK x => exact ⟨_, rfl, congrArg _ (waitKeyWith_withSt b _ x s.sampleKeys.2)⟩
  | drw x y n =>
    exact ⟨_, rfl, congrArg _ (State.settle_guardSpan_withSt b _ _ s (s.drawSprite x y _))⟩
  | ldB x =>
    exact ⟨_, rfl, congrArg _ (State.settle_guardSpan_withSt b _ _ s { s with mem := _ })⟩
  | storeRegs x =>
    exact ⟨_, rfl, congrArg _ (State.settle_guardSpan_withSt b _ _ s { s with mem := _, i := _ })⟩
  | loadRegs x =>
    refine ⟨_, rfl, ?_⟩
    rw [← State.settle_guardSpan_withSt, ← State.setRegs_withSt]
    rfl
  | _ => exact ⟨_, rfl, rfl⟩

end OtherSoundTimer

theorem st_notMem_writes {i : Instr} (hi : ∀ x, i ≠ .ldStVx x) : Part.st ∉ writes i := by
  cases i with
  | ldStVx x => exact absurd rfl (hi x)
  | _ => simp [writes]

/-- Two states that differ in ST alone run every instruction alike: `LD ST, Vx` gives both the same ST, and
every other instruction leaves each its own. -/
theorem exec_other_st {i : Instr} {s t : State} (b : Byte) (h : exec i s = .next t) :
    ∃ u, exec i (s.withSt b) = .next u ∧ SameBut [.st] t u ∧
      (u.st = t.st ∨ (t.st = s.st ∧ u.st = b)) := by
  by_cases hi : ∃ x, i = .ldStVx x
  · obtain ⟨x, rfl⟩ := hi
    exact ⟨t, h, SameBut.refl _ t, .inl rfl⟩
  · have hi : ∀ x, i ≠ .ldStVx x := not_exists.mp hi
    obtain ⟨t', ht', hother⟩ := exec_withSt b hi s
    obtain rfl : t' = t := Host.Outcome.next.inj (ht'.symm.trans h)
    have hst : t'.st = s.st := exec_keeps_part h (st_notMem_writes hi) (by simp)
    exact ⟨_, hother, SameBut.st t' b, .inr ⟨hst, rfl⟩⟩

/-- Settles O47: the transfer is O43's, and ST is never read by comparing a run with the run from the same
state under another ST. -/
theorem soundTimerIsNeverRead : Obligations.SoundTimerIsNeverRead :=
  ⟨encodedAs_row (.ldStVx 0), fun x s => ⟨_, exec_ldStVx x s, rfl, SameBut.st s _⟩,
    fun _ _ _ b h => exec_other_st b h⟩

end Sys2Proof.Machine
end

section
/-! PROOFS. The external renderer (60_exceptions.md): the display read pixel by pixel (R205). -/

namespace Sys2Proof.Machine

@[simp] theorem State.length_displayRead (s : State) : s.displayRead.length = 2048 := by
  simp [State.displayRead]

theorem State.getElem?_displayRead (s : State) {j : Nat} (h : j < 2048) :
    s.displayRead[j]? = some (s.pixel j) := by
  rw [State.displayRead, List.getElem?_map, List.getElem?_range h, Option.map_some]

/-- `D[row * 64 + col]` is the pixel (col, row) (10_state.md R20). -/
theorem State.pixel_rowMajor (s : State) {col : Nat} (row : Nat) (hcol : col < 64) :
    s.pixel (row * 64 + col) = s.display.pixel col row := by
  have hmod : (row * 64 + col) % 64 = col := by omega
  have hdiv : (row * 64 + col) / 64 = row := by omega
  rw [State.pixel, hmod, hdiv]

/-- Settles O56: the reply lists `D[0] .. D[2047]` in order, and the transaction looks at no FAULT, so that
it is the same when halted. -/
theorem displayReadIsRowMajor : Obligations.DisplayReadIsRowMajor := by
  intro s
  refine ⟨s.displayRead, rfl, s.length_displayRead, fun col row hcol hrow => ?_⟩
  have hindex : row * 64 + col < 2048 := by omega
  rw [s.getElem?_displayRead hindex, s.pixel_rowMajor row hcol]

end Sys2Proof.Machine
end

section
/-! PROOFS. The encoding (30_encoding.md): the encoder and the decoder undo each other up to the ignored
nibbles (R65, R67), the words that are no instruction (R68), and the fields of a word (R61). -/

namespace Sys2Proof.Machine

/-! ### The decoder undoes the encoder -/

theorem dispatch_ofInstr : ∀ i : Instr, dispatch (Fields.ofInstr i) = some i
  | .cls => Laws.Dispatch.cls.2
  | .ret => Laws.Dispatch.ret.2
  | .jp nnn => (Laws.Dispatch.jp nnn).2
  | .call nnn => (Laws.Dispatch.call nnn).2
  | .seImm x kk => (Laws.Dispatch.seImm x kk).2
  | .sneImm x kk => (Laws.Dispatch.sneImm x kk).2
  | .seReg x y => (Laws.Dispatch.seReg x y).2
  | .ldImm x kk => (Laws.Dispatch.ldImm x kk).2
  | .addImm x kk => (Laws.Dispatch.addImm x kk).2
  | .ldReg x y => (Laws.Dispatch.ldReg x y).2
  | .orReg x y => (Laws.Dispatch.orReg x y).2
  | .andReg x y => (Laws.Dispatch.andReg x y).2
  | .xorReg x y => (Laws.Dispatch.xorReg x y).2
  | .addReg x y => (Laws.Dispatch.addReg x y).2
  | .sub x y => (Laws.Dispatch.sub x y).2
  | .shr x y => (Laws.Dispatch.shr x y).2
  | .subn x y => (Laws.Dispatch.subn x y).2
  | .shl x y => (Laws.Dispatch.shl x y).2
  | .sneReg x y => (Laws.Dispatch.sneReg x y).2
  | .ldI nnn => (Laws.Dispatch.ldI nnn).2
  | .jpV0 nnn => (Laws.Dispatch.jpV0 nnn).2
  | .rnd x kk => (Laws.Dispatch.rnd x kk).2
  | .drw x y n => (Laws.Dispatch.drw x y n).2
  | .skp x => (Laws.Dispatch.skp x).2
  | .sknp x => (Laws.Dispatch.sknp x).2
  | .ldVxDt x => (Laws.Dispatch.ldVxDt x).2
  | .ldVxK x => (Laws.Dispatch.ldVxK x).2
  | .ldDtVx x => (Laws.Dispatch.ldDtVx x).2
  | .ldStVx x => (Laws.Dispatch.ldStVx x).2
  | .addI x => (Laws.Dispatch.addI x).2
  | .ldF x => (Laws.Dispatch.ldF x).2
  | .ldB x => (Laws.Dispatch.ldB x).2
  | .storeRegs x => (Laws.Dispatch.storeRegs x).2
  | .loadRegs x => (Laws.Dispatch.loadRegs x).2

theorem decode_encode (i : Instr) : decode (encode i) = .ok i :=
  decode_of_dispatch (by rw [encode, Fields.ofWord_toWord]; exact dispatch_ofInstr i)

/-- The two bytes of a word that decodes are its instruction, and the bytes after them are left. -/
theorem decodeBytes_of_decode {hi lo : Byte} {i : Instr} (h : decode (joinBytes hi lo) = .ok i)
    (rest : List Byte) : decodeBytes (hi :: lo :: rest) = .ok (i, rest) := by
  simp only [decodeBytes, h]

/-- Settles O1: the encoder's fields are a dispatch row of the instruction, the split undoes the putting
together of a word, and the two bytes of a word give it back. -/
theorem decodeOfEncode : Obligations.DecodeOfEncode := by
  refine fun i => ⟨decode_encode i, fun rest => decodeBytes_of_decode ?_ rest⟩
  rw [joinBytes_hiByte_loByte]
  exact decode_encode i

/-! ### The encoder undoes the decoder up to the ignored nibbles (R65) -/

/-- The fields of a word with the ignored nibbles at their canonical values (R65). -/
def canonicalFields (f : Fields) : Fields :=
  if f.h.toNat = 0x0 then { f with x := 0x0, y := 0xE }
  else if f.h.toNat = 0x5 ∨ f.h.toNat = 0x9 then { f with n := 0x0 }
  else f

theorem canonicalFields_of_header0 {f : Fields} (h : f.h.toNat = 0x0) :
    canonicalFields f = { f with x := 0x0, y := 0xE } := if_pos h

theorem canonicalFields_of_header5_or_9 {f : Fields} (h : f.h.toNat = 0x5 ∨ f.h.toNat = 0x9) :
    canonicalFields f = { f with n := 0x0 } := by
  rw [canonicalFields, if_neg (by omega), if_pos h]

theorem canonicalFields_of_other_header {f : Fields} (h0 : f.h.toNat ≠ 0x0) (h5 : f.h.toNat ≠ 0x5)
    (h9 : f.h.toNat ≠ 0x9) : canonicalFields f = f := by
  rw [canonicalFields, if_neg h0, if_neg (by omega)]

/-- The fields of two words put over each other are the fields put over each other. -/
theorem ofWord_or (v w : Word) :
    Fields.ofWord (v ||| w) =
      ⟨(Fields.ofWord v).h ||| (Fields.ofWord w).h, (Fields.ofWord v).x ||| (Fields.ofWord w).x,
       (Fields.ofWord v).y ||| (Fields.ofWord w).y, (Fields.ofWord v).n ||| (Fields.ofWord w).n⟩ := by
  simp only [Fields.ofWord, Fields.mk.injEq]
  refine ⟨?_, ?_, ?_, ?_⟩ <;> apply BitVec.eq_of_getLsbD_eq <;> intro k hk <;> simp [hk]

/-- A word under the mask of all nibbles but the lowest. -/
theorem ofWord_and_FFF0 (w : Word) : Fields.ofWord (w &&& 0xFFF0) = { Fields.ofWord w with n := 0 } := by
  have hm : Fields.ofWord 0xFFF0 = ⟨0xF, 0xF, 0xF, 0⟩ := by decide
  rw [Fields.ofWord_and, hm, Fields.mk.injEq]
  exact ⟨BitVec.and_allOnes, BitVec.and_allOnes, BitVec.and_allOnes, BitVec.and_zero⟩

/-- A word of header 0x0 with its two middle nibbles put to 0x0 and 0xE. -/
theorem ofWord_and_F00F_or_00E0 (w : Word) :
    Fields.ofWord ((w &&& 0xF00F) ||| 0x00E0) = { Fields.ofWord w with x := 0x0, y := 0xE } := by
  have hm : Fields.ofWord 0x00E0 = ⟨0, 0, 0xE, 0⟩ := by decide
  rw [ofWord_or, (Fields.mask_header_n w _).1 rfl, hm, Fields.mk.injEq]
  exact ⟨BitVec.or_zero, BitVec.or_zero, BitVec.zero_or, BitVec.or_zero⟩

theorem ofWord_canonicalWord (w : Word) :
    Fields.ofWord (canonicalWord w) = canonicalFields (Fields.ofWord w) := by
  unfold canonicalWord
  split
  · next h => rw [canonicalFields_of_header0 h, ofWord_and_F00F_or_00E0]
  · next h => rw [canonicalFields_of_header5_or_9 (.inl h), ofWord_and_FFF0]
  · next h => rw [canonicalFields_of_header5_or_9 (.inr h), ofWord_and_FFF0]
  · next h0 h5 h9 => rw [canonicalFields_of_other_header h0 h5 h9]

section

variable {f : Fields} {i : Instr} {h : Nibble}

theorem addr_nnn_of_header (hh : f.h.toNat = h.toNat) : Fields.addr h f.nnn = f := by
  rw [← BitVec.eq_of_toNat_eq hh, Fields.addr_nnn]

theorem xkk_kk_of_header (hh : f.h.toNat = h.toNat) : Fields.xkk h f.x f.kk = f := by
  rw [← BitVec.eq_of_toNat_eq hh, Fields.xkk_kk]

/-- The fields of a word with a key in its low byte are made of the header, `x` and that key. -/
theorem xkk_of_key {kk : Byte} (hh : f.h.toNat = h.toNat) (hkk : f.kk.toNat = kk.toNat) :
    Fields.xkk h f.x kk = f := by
  rw [← BitVec.eq_of_toNat_eq hkk, xkk_kk_of_header hh]

/-- The fields of a word with a key in its low nibble. -/
theorem eq_mk_of_key {n : Nibble} (hh : f.h.toNat = h.toNat) (hn : f.n.toNat = n.toNat) :
    ⟨h, f.x, f.y, n⟩ = f := by
  rw [← BitVec.eq_of_toNat_eq hh, ← BitVec.eq_of_toNat_eq hn]

theorem ofInstr_of_dispatch0 (hh : f.h.toNat = 0x0) (hd : dispatch0 f = some i) :
    Fields.ofInstr i = { f with x := 0x0, y := 0xE } := by
  unfold dispatch0 at hd
  split at hd <;> cases hd <;>
    exact eq_mk_of_key (f := { f with x := 0x0, y := 0xE }) hh ‹_›

theorem ofInstr_of_dispatch8 (hh : f.h.toNat = 0x8) (hd : dispatch8 f = some i) :
    Fields.ofInstr i = f := by
  unfold dispatch8 at hd
  split at hd <;> cases hd <;> exact eq_mk_of_key hh ‹_›

theorem ofInstr_of_dispatchE (hh : f.h.toNat = 0xE) (hd : dispatchE f = some i) :
    Fields.ofInstr i = f := by
  unfold dispatchE at hd
  split at hd <;> cases hd <;> exact xkk_of_key hh ‹_›

theorem ofInstr_of_dispatchF (hh : f.h.toNat = 0xF) (hd : dispatchF f = some i) :
    Fields.ofInstr i = f := by
  unfold dispatchF at hd
  split at hd <;> cases hd <;> exact xkk_of_key hh ‹_›

/-- The fields of the instruction that fields dispatch to are those fields, but for the ignored nibbles. -/
theorem ofInstr_of_dispatch (hd : dispatch f = some i) : Fields.ofInstr i = canonicalFields f := by
  unfold dispatch at hd
  split at hd
  case h_1 hh => rw [canonicalFields_of_header0 hh, ofInstr_of_dispatch0 hh hd]
  case h_6 hh =>
    cases hd
    rw [canonicalFields_of_header5_or_9 (.inl hh)]
    exact eq_mk_of_key (f := { f with n := 0x0 }) hh rfl
  case h_10 hh =>
    cases hd
    rw [canonicalFields_of_header5_or_9 (.inr hh)]
    exact eq_mk_of_key (f := { f with n := 0x0 }) hh rfl
  case h_17 => cases hd
  all_goals rw [canonicalFields_of_other_header (by omega) (by omega) (by omega)]
  case h_9 hh => exact ofInstr_of_dispatch8 hh hd
  case h_15 hh => exact ofInstr_of_dispatchE hh hd
  case h_16 hh => exact ofInstr_of_dispatchF hh hd
  case h_14 hh => cases hd; exact eq_mk_of_key hh rfl
  case h_2 hh | h_3 hh | h_11 hh | h_12 hh => cases hd; exact addr_nnn_of_header hh
  all_goals
    cases hd
    exact xkk_kk_of_header ‹_›

end

/-- Settles O2: the instruction's fields are the canonical ones of the word's, so the encoder gives the
canonical word, and the decoder undoes the encoder. -/
theorem encodeOfDecode : Obligations.EncodeOfDecode := by
  intro w i h
  have hencode : encode i = canonicalWord w := by
    rw [encode, ofInstr_of_dispatch (dispatch_of_decode h), ← ofWord_canonicalWord, Fields.toWord_ofWord]
  exact ⟨hencode, hencode ▸ decode_encode i⟩

/-! ### The words that are no instruction (R68) -/

section

variable (f : Fields)

theorem dispatch0_eq_none_iff : dispatch0 f = none ↔ f.n.toNat ∉ [0x0, 0xE] := by
  unfold dispatch0
  split <;> simp_all

theorem dispatch8_eq_none_iff :
    dispatch8 f = none ↔ f.n.toNat ∈ [0x8, 0x9, 0xA, 0xB, 0xC, 0xD, 0xF] := by
  have := f.n.isLt
  unfold dispatch8
  split <;> simp_all
  omega

theorem dispatchE_eq_none_iff : dispatchE f = none ↔ f.kk.toNat ∉ [0x9E, 0xA1] := by
  unfold dispatchE
  split <;> simp_all

theorem dispatchF_eq_none_iff :
    dispatchF f = none ↔
      f.kk.toNat ∉ [0x07, 0x0A, 0x15, 0x18, 0x1E, 0x29, 0x33, 0x55, 0x65] := by
  unfold dispatchF
  split <;> simp_all

/-- Only the four headers with a second-level key reject fields, each by its key. -/
theorem dispatch_eq_none_iff :
    dispatch f = none ↔
      (f.h.toNat = 0x0 ∧ dispatch0 f = none) ∨ (f.h.toNat = 0x8 ∧ dispatch8 f = none) ∨
      (f.h.toNat = 0xE ∧ dispatchE f = none) ∨ (f.h.toNat = 0xF ∧ dispatchF f = none) := by
  have := f.h.isLt
  unfold dispatch
  split <;> simp_all
  omega

end

theorem decode_eq_invalid_iff (w : Word) :
    decode w = .error (.invalidInstruction w) ↔ dispatch (Fields.ofWord w) = none := by
  refine ⟨fun h => ?_, decode_of_dispatch_none⟩
  cases hd : dispatch (Fields.ofWord w) with
  | none => rfl
  | some i => rw [decode_of_dispatch hd] at h; cases h

theorem toNat_kk_ofWord (w : Word) : (Fields.ofWord w).kk.toNat = w.toNat % 256 := by
  rw [Fields.toNat_kk, Fields.toNat_y, Fields.toNat_n]
  omega

theorem toNat_nnn_ofWord (w : Word) : (Fields.ofWord w).nnn.toNat = w.toNat % 4096 := by
  rw [Fields.toNat_nnn, Fields.toNat_x, toNat_kk_ofWord]
  omega

/-- Settles O4: a word is invalid where its fields dispatch to nothing, and that is said by its header and
its second-level key, here as slices of the word. -/
theorem invalidWordsAreExactlyThese : Obligations.InvalidWordsAreExactlyThese := by
  intro w
  rw [decode_eq_invalid_iff, dispatch_eq_none_iff, dispatch0_eq_none_iff, dispatch8_eq_none_iff,
    dispatchE_eq_none_iff, dispatchF_eq_none_iff, toNat_kk_ofWord, Fields.toNat_h, Fields.toNat_n]

/-- Settles O5: the nibbles are slices, and `kk` and `nnn` are put together from them. -/
theorem fieldsAreSlices : Obligations.FieldsAreSlices := fun w =>
  ⟨Fields.toNat_h w, Fields.toNat_x w, Fields.toNat_y w, Fields.toNat_n w, toNat_kk_ofWord w,
    toNat_nnn_ofWord w⟩

/-- Settles O6: each word is decoded by evaluation. -/
theorem sampleWordsDecode : Obligations.SampleWordsDecode :=
  ⟨rfl, rfl, rfl, rfl, rfl, rfl, rfl, rfl, rfl, rfl⟩

end Sys2Proof.Machine
end

section
/-! PROOFS. The instruction cycle (10_state.md R24, 60_exceptions.md R186 to R191): what a step does where
it runs, where it cannot fetch, where its word is invalid, and where the engine is halted. -/

namespace Sys2Proof.Machine

/-! ### The answer of a step, case by case -/

section

variable {s t : State} {w : Word} {i : Instr} {e : ErrorRecord}

theorem step_of_halted (h : s.fault = some e) : step s = .fault (.halted e) := by
  simp only [step, cycle, h]

theorem tick_of_halted (h : s.fault = some e) : tick s = .fault (.halted e) := by
  simp only [tick, h]

/-- A step that cannot fetch takes the error of the fetch. -/
theorem step_of_fetch_error (hs : s.Running) (hw : s.fetch = .error e) : step s = .next (s.raise e) := by
  have hs' : s.fault = none := hs
  simp only [step, cycle, hs', hw]

/-- A step whose instruction raises takes its error in the state before the advance of PC (R186). -/
theorem step_of_exec_halted (hs : s.Running) (hw : s.fetch = .ok w) (hi : decode w = .ok i)
    (hexec : exec i s.advancePc = .next t) (ht : t.fault = some e) : step s = .next (s.raise e) := by
  have hs' : s.fault = none := hs
  have hexecute : execute w s.advancePc = .next t :=
    (execute_of_decode (s := s.advancePc) hs hi).trans hexec
  simp only [step, cycle, hs', hw, hexecute, State.preciseAnswer, State.precise_of_halted ht]

/-- A step of an invalid word takes InvalidInstruction in the state before the advance of PC (R186). -/
theorem step_of_invalid {r : Reject} (hs : s.Running) (hw : s.fetch = .ok w) (hd : decode w = .error r) :
    step s = .next (s.raise (.invalidInstruction w)) := by
  have hs' : s.fault = none := hs
  have hexecute : execute w s.advancePc = .next (s.advancePc.raise (.invalidInstruction w)) :=
    execute_of_invalid (s := s.advancePc) hs hd
  have hfault : (s.advancePc.raise (.invalidInstruction w)).fault = some (.invalidInstruction w) := by
    simp [hs']
  simp only [step, cycle, hs', hw, hexecute, State.preciseAnswer, State.precise_of_halted hfault]

/-- A step that answers began in a running state, and it ends running or it has raised. -/
theorem running_or_raise_of_step (h : step s = .next t) :
    s.Running ∧ (t.Running ∨ ∃ e, t = s.raise e) := by
  obtain ⟨hs, ⟨e, -, rfl⟩ | ⟨w, r, -, -, rfl⟩ | ⟨w, i, u, -, -, -, rfl⟩⟩ := step_cases h
  · exact ⟨hs, .inr ⟨e, rfl⟩⟩
  · exact ⟨hs, .inr ⟨_, rfl⟩⟩
  · refine ⟨hs, ?_⟩
    cases hu : u.fault with
    | none => rw [State.precise_of_running hu]; exact .inl hu
    | some e => rw [State.precise_of_halted hu]; exact .inr ⟨e, rfl⟩

/-- A state halted from a running one holds the error that halted it. -/
theorem HaltedBy.of_raise {e' : ErrorRecord} (hs : s.Running) (h : (s.raise e').fault = some e) :
    HaltedBy e s (s.raise e') := by
  have hs' : s.fault = none := hs
  obtain rfl : e' = e := by simpa [hs'] using h
  exact HaltedBy.raise hs e'

/-- A mutator of the host, `load`, step, execute and tick are refused in a halted state (R188, log 8). -/
theorem transact_of_halted {bytes : List Byte} {a k : Nat} {b : Byte} {op : HostOp}
    (h : s.fault = some e)
    (hop : op ∈ [.step, .execute w, .tick, .load bytes, .setByte a b, .setV k b, .setI w, .setDt b,
      .setSt b, .setPc w, .push w, .pop, .advancePc, .addToGeneral k b]) :
    transact s op = (s, .halted e) := by
  simp only [List.mem_cons, List.not_mem_nil, or_false] at hop
  obtain rfl | rfl | rfl | hmutator := hop
  · rw [transact, step_of_halted h]; rfl
  · rw [transact, execute_of_halted h]; rfl
  · rw [transact, tick_of_halted h]; rfl
  · obtain rfl | rfl | rfl | rfl | rfl | rfl | rfl | rfl | rfl | rfl | rfl := hmutator <;>
      rw [transact, State.replyState_of_halted h]

end

/-! ### The obligations -/

/-- Settles O7: the two bytes at PC are the fetched word, and whether `exec` raises decides between its
result and the undone step. -/
theorem stepRunsTheDecodedInstruction : Obligations.StepRunsTheDecodedInstruction := by
  refine ⟨fun s i hs hpc hi => ?_, fun s w i hs hi => execute_of_decode hs hi⟩
  have hw := s.fetch_ok hpc
  obtain ⟨t, ht⟩ := exec_answers_next i s.advancePc
  exact ⟨t, ht, step_of_exec_running hs hw hi ht,
    fun e he => ⟨_, step_of_exec_halted hs hw hi ht he, HaltedBy.raise hs e⟩⟩

/-- Settles O8: the fetch raises at the first missing byte, and the step takes that error. -/
theorem fetchOutsideMemoryHalts : Obligations.FetchOutsideMemoryHalts := by
  refine fun s hs => ⟨fun hpast => ?_, fun hlast => ?_⟩
  · have hw := State.fetch_of_end (s := s) (by omega)
    rw [Nat.max_eq_left hpast] at hw
    exact ⟨_, step_of_fetch_error hs hw, HaltedBy.raise hs _⟩
  · exact ⟨_, step_of_fetch_error hs (State.fetch_of_last_byte hlast), HaltedBy.raise hs _⟩

/-- Settles O9: an invalid word raises in `execute`, and the step undoes the advance of PC. -/
theorem invalidWordHalts : Obligations.InvalidWordHalts := fun _ _ hs hd =>
  ⟨⟨_, execute_of_invalid hs hd, HaltedBy.raise hs _⟩,
    fun hw => ⟨_, step_of_invalid hs hw hd, HaltedBy.raise hs _⟩⟩

/-- Settles O10: each of the three looks at FAULT first, and so does the end of every mutator. -/
theorem haltedEngineRefuses : Obligations.HaltedEngineRefuses := fun _ _ h =>
  ⟨step_of_halted h, execute_of_halted h, tick_of_halted h, fun _ _ _ _ _ _ => transact_of_halted h⟩

/-- Settles O11: a step that ends halted is one that has raised. -/
theorem errorsArePrecise : Obligations.ErrorsArePrecise := by
  intro s t h
  obtain ⟨hs, ht | ⟨e', rfl⟩⟩ := running_or_raise_of_step h
  · exact ⟨hs, fun e he => by rw [show t.fault = none from ht] at he; cases he⟩
  · exact ⟨hs, fun e he => HaltedBy.of_raise hs he⟩

/-- Settles O15: the end of a run is the jump to itself. -/
theorem finishedRunStays : Obligations.FinishedRunStays := by
  rintro s ⟨hs, nnn, hpc, hw⟩
  exact step_of_jp_self hs hpc hw

end Sys2Proof.Machine
end

section
/-! PROOFS. The invariant: Memory stays in canonical form (20_memory.md R40) and a latched record is borne
out by the frozen state (60_exceptions.md R181 to R185, R190). -/

namespace Sys2Proof.Machine

/-- The record `e` is one that `s` bears out, where it halts `s`. -/
def State.BearsOut (s : State) (e : ErrorRecord) : Prop := State.FaultSound { s with fault := some e }

/-- What an operation may give so that the invariant is kept: a state with canonical Memory and FAULT as it
was, or an error that the state before it bears out. -/
def State.ResultSound (s : State) : Except ErrorRecord State → Prop
  | .ok t => t.mem.wf ∧ t.fault = s.fault
  | .error e => s.BearsOut e

section

variable {s t : State} {a k : Nat} {b : Byte}

theorem bearsOut_outOfBounds (h : 16 ≤ a) : s.BearsOut (.outOfBounds a) := h

theorem bearsOut_outsideMemory (h : Config.memSize ≤ a) : s.BearsOut (.outOfBounds a) :=
  bearsOut_outOfBounds (le_trans (by decide) h)

/-! ### The operations that can raise -/

theorem resultSound_push (h : s.mem.wf) (w : Word) : s.ResultSound (s.push w) := by
  cases hp : s.push w with
  | ok t =>
    obtain ⟨-, hmem, hfault, -⟩ := State.push_ok s hp
    exact ⟨by rw [hmem]; exact h, hfault⟩
  | error e =>
    obtain ⟨rfl, hfull⟩ := State.push_error s hp
    exact hfull

theorem resultSound_pop (h : s.mem.wf) : s.ResultSound (s.pop.map Prod.snd) := by
  cases hp : s.pop with
  | ok au =>
    obtain ⟨-, hmem, hfault, -⟩ := State.pop_ok s hp
    exact ⟨by rw [hmem]; exact h, hfault⟩
  | error e =>
    obtain ⟨rfl, hempty⟩ := State.pop_error s hp
    exact hempty

theorem resultSound_guardSpan (first count : Nat)
    (h : count = 0 ∨ first + count ≤ Config.memSize → t.mem.wf) (hf : t.fault = s.fault) :
    s.ResultSound (guardSpan first count t) := by
  unfold guardSpan
  split
  · exact ⟨h ‹_›, hf⟩
  · exact bearsOut_outsideMemory (le_max_right _ _)

theorem resultSound_memWrite (h : s.mem.wf) (a : Nat) (b : Byte) : s.ResultSound (s.memWrite a b) := by
  unfold State.memWrite
  split
  · next ha => exact ⟨Memory.wf_write h ha b, rfl⟩
  · exact bearsOut_outsideMemory (Nat.not_lt.mp ‹_›)

theorem resultSound_load (h : s.mem.wf) (bytes : List Byte) : s.ResultSound (s.load bytes) := by
  unfold State.load
  split
  · next hlong => exact hlong
  · refine ⟨Memory.wf_writeBlock h _ _ ?_, rfl⟩
    simp only [memSize_eq, progBase_eq, romMax_eq] at *
    omega

theorem resultSound_setV (h : s.mem.wf) (k : Nat) (b : Byte) : s.ResultSound (s.setV k b) := by
  unfold State.setV
  split
  · exact ⟨h, rfl⟩
  · exact bearsOut_outOfBounds (Nat.not_lt.mp ‹_›)

theorem resultSound_addV (h : s.mem.wf) (k : Nat) (b : Byte) : s.ResultSound (s.addV k b) := by
  unfold State.addV
  split
  · exact ⟨h, rfl⟩
  · exact bearsOut_outOfBounds (Nat.not_lt.mp ‹_›)

/-! ### Every instruction -/

theorem waitKeyWith_mem_fault (keys : Word) (x : Nibble) (s : State) :
    (waitKeyWith keys x s).mem = s.mem ∧ (waitKeyWith keys x s).fault = s.fault := by
  unfold waitKeyWith
  split <;> exact ⟨rfl, rfl⟩

/-- Every instruction is the end of an operation whose result keeps the invariant. -/
theorem exec_eq_settle (h : s.mem.wf) (i : Instr) :
    ∃ r, exec i s = .next (s.settle r) ∧ s.ResultSound r := by
  cases i with
  | ret =>
    have hpop := resultSound_pop h
    cases hp : s.pop with
    | error e => rw [hp] at hpop; exact ⟨.error e, exec_ret_of_pop_error hp, hpop⟩
    | ok au => rw [hp] at hpop; exact ⟨.ok { au.2 with pc := au.1 }, exec_ret_of_pop_ok hp, hpop⟩
  | call nnn => exact ⟨_, rfl, resultSound_push h _⟩
  | ldVxK x =>
    obtain ⟨hmem, hfault⟩ := waitKeyWith_mem_fault s.sampleKeys.1 x s.sampleKeys.2
    exact ⟨.ok (waitKeyWith s.sampleKeys.1 x s.sampleKeys.2), rfl, by rw [hmem]; exact h, hfault⟩
  | drw x y n => exact ⟨_, rfl, resultSound_guardSpan _ _ (fun _ => h) rfl⟩
  | ldB x =>
    refine ⟨_, rfl, resultSound_guardSpan _ _ (fun hin => ?_) rfl⟩
    exact Memory.wf_writeBlock h _ _ (hin.resolve_left (by decide))
  | storeRegs x =>
    refine ⟨_, rfl, resultSound_guardSpan _ _ (fun hin => Memory.wf_writeBlock h _ _ ?_) rfl⟩
    rw [State.length_regsUpTo]
    exact hin.resolve_left (by omega)
  | loadRegs x =>
    exact ⟨_, rfl, resultSound_guardSpan _ _ (fun _ => by rw [State.setRegs_mem]; exact h)
      (State.setRegs_fault ..)⟩
  | _ => exact ⟨.ok _, rfl, h, rfl⟩

/-! ### The ends of the operations -/

theorem State.Inv.of_running (hm : t.mem.wf) (ht : t.Running) : t.Inv := by
  refine ⟨hm, ?_⟩
  rw [State.FaultSound, show t.fault = none from ht]
  trivial

/-- An error that the state bears out keeps the invariant, also where a record is latched already. -/
theorem State.Inv.raise {e : ErrorRecord} (h : s.Inv) (he : s.BearsOut e) : (s.raise e).Inv := by
  cases hs : s.fault with
  | none => rw [State.raise_of_running hs]; exact ⟨h.1, he⟩
  | some e' => rwa [State.raise_of_halted hs]

/-- The end of an operation on a running engine keeps the invariant. -/
theorem State.Inv.settle {r : Except ErrorRecord State} (h : s.Inv) (hs : s.Running)
    (hr : s.ResultSound r) : (s.settle r).Inv := by
  cases r with
  | ok t => exact .of_running hr.1 (hr.2.trans hs)
  | error e => exact h.raise hr

/-- A record latched by an instruction is one that the state before it bears out. -/
theorem bearsOut_of_settle {r : Except ErrorRecord State} {e : ErrorRecord} (hs : s.Running)
    (hr : s.ResultSound r) (h : (s.settle r).fault = some e) : s.BearsOut e := by
  have hs' : s.fault = none := hs
  cases r with
  | ok t => rw [State.settle_ok, hr.2, hs'] at h; cases h
  | error e' =>
    obtain rfl : e' = e := by simpa [hs'] using h
    exact hr

theorem bearsOut_invalid {w : Word} {r : Reject} (hd : decode w = .error r) :
    s.BearsOut (.invalidInstruction w) := by
  rw [decode_error hd] at hd
  exact hd

/-- A fetch that raises names an address outside Memory. -/
theorem bearsOut_of_fetch_error {e : ErrorRecord} (h : s.fetch = .error e) : s.BearsOut e := by
  obtain ⟨rfl, -⟩ := State.fetch_error s h
  exact bearsOut_outsideMemory (le_max_right _ _)

theorem execute_keeps_inv {w : Word} (hinv : s.Inv) (h : execute w s = .next t) : t.Inv := by
  cases hs : s.fault with
  | some e => rw [execute_of_halted hs] at h; cases h
  | none =>
    cases hd : decode w with
    | error r =>
      rw [execute_of_invalid hs hd] at h
      cases h
      exact hinv.raise (bearsOut_invalid hd)
    | ok i =>
      obtain ⟨r, hexec, hr⟩ := exec_eq_settle hinv.1 i
      rw [execute_of_decode hs hd, hexec] at h
      cases h
      exact hinv.settle hs hr

theorem step_keeps_inv (hinv : s.Inv) (h : step s = .next t) : t.Inv := by
  obtain ⟨hs, ⟨e, hw, rfl⟩ | ⟨w, r, -, hd, rfl⟩ | ⟨w, i, u, -, -, hexec, rfl⟩⟩ := step_cases h
  · exact hinv.raise (bearsOut_of_fetch_error hw)
  · exact hinv.raise (bearsOut_invalid hd)
  · obtain ⟨r, hsettle, hr⟩ := exec_eq_settle (s := s.advancePc) hinv.1 i
    obtain rfl : s.advancePc.settle r = u := Host.Outcome.next.inj (hsettle.symm.trans hexec)
    have hadv : s.advancePc.Inv := .of_running hinv.1 hs
    cases hu : (s.advancePc.settle r).fault with
    | none => rw [State.precise_of_running hu]; exact hadv.settle hs hr
    | some e =>
      have he : s.advancePc.BearsOut e := bearsOut_of_settle hs hr hu
      rw [State.precise_of_halted hu]
      exact hinv.raise he

theorem tick_keeps_inv (hinv : s.Inv) (h : tick s = .next t) : t.Inv := by
  cases hs : s.fault with
  | some e => rw [tick_of_halted hs] at h; cases h
  | none =>
    rw [tick_of_running hs] at h
    cases h
    exact .of_running hinv.1 hs

/-! ### The ends of the host's transactions -/

theorem State.Inv.replyValue {r : Except ErrorRecord Reply} (h : s.Inv)
    (hr : ∀ e, r = .error e → s.BearsOut e) : (s.replyValue r).1.Inv := by
  cases r with
  | ok r => exact h
  | error e => exact h.raise (hr e rfl)

theorem State.Inv.replyState {r : Except ErrorRecord (State × Reply)} (h : s.Inv)
    (hr : s.ResultSound (r.map Prod.fst)) : (s.replyState r).1.Inv := by
  cases hs : s.fault with
  | some e => rw [State.replyState_of_halted hs]; exact h
  | none =>
    cases r with
    | ok tr => rw [State.replyState_of_ok hs]; exact h.settle hs (r := .ok tr.1) hr
    | error e => rw [State.replyState_of_error hs]; exact h.raise hr

theorem State.Inv.replyState_quietly {r : Except ErrorRecord State} (h : s.Inv)
    (hr : s.ResultSound r) : (s.replyState (quietly r)).1.Inv := by
  refine h.replyState ?_
  cases r <;> exact hr

theorem State.Inv.replyAnswer {r : Answer} (h : s.Inv) (hr : ∀ t, r = .next t → t.Inv) :
    (s.replyAnswer r).1.Inv := by
  cases r with
  | next t =>
    have ht := hr t rfl
    cases hf : t.fault <;> simpa only [State.replyAnswer, hf] using ht
  | fault r => cases r; exact h
  | refused r => exact h

theorem State.reset_inv : State.reset.Inv := .of_running State.reset_mem_wf rfl

theorem bearsOut_of_memRead_error {e : ErrorRecord} (h : (s.memRead a).map Reply.byte = .error e) :
    s.BearsOut e := by
  unfold State.memRead at h
  split at h
  · cases h
  · cases h; exact bearsOut_outsideMemory (Nat.not_lt.mp ‹_›)

theorem bearsOut_of_getV_error {e : ErrorRecord} (h : (s.getV k).map Reply.byte = .error e) :
    s.BearsOut e := by
  unfold State.getV at h
  split at h
  · cases h
  · cases h; exact bearsOut_outOfBounds (Nat.not_lt.mp ‹_›)

/-- Every transaction of the host keeps the invariant. -/
theorem transact_keeps_inv (h : s.Inv) (op : HostOp) : (transact s op).1.Inv := by
  have hm : s.mem.wf := h.1
  cases op with
  | reset => exact .of_running State.reset_mem_wf rfl
  | getI | getDt | getSt | getPc | displayRead => exact h
  | getByte a => exact h.replyValue fun _ => bearsOut_of_memRead_error
  | getV k => exact h.replyValue fun _ => bearsOut_of_getV_error
  | setI | setDt | setSt | setPc | advancePc => exact h.replyState ⟨hm, rfl⟩
  | load bytes => exact h.replyState_quietly (resultSound_load hm bytes)
  | setByte a b => exact h.replyState_quietly (resultSound_memWrite hm a b)
  | setV k b => exact h.replyState_quietly (resultSound_setV hm k b)
  | addToGeneral k b => exact h.replyState_quietly (resultSound_addV hm k b)
  | push w => exact h.replyState_quietly (resultSound_push hm w)
  | pop =>
    have hpop := resultSound_pop hm
    refine h.replyState ?_
    cases hp : s.pop <;> rw [hp] at hpop <;> exact hpop
  | step => exact h.replyAnswer fun _ => step_keeps_inv h
  | execute w => exact h.replyAnswer fun _ => execute_keeps_inv h
  | tick => exact h.replyAnswer fun _ => tick_keeps_inv h

theorem transactAll_keeps_inv (h : s.Inv) (ops : List HostOp) : (transactAll s ops).Inv := by
  induction ops generalizing s with
  | nil => exact h
  | cons op ops ih => exact ih (transact_keeps_inv h op)

end

/-! ### The obligations -/

/-- Settles O12: the cases of a step, where each error is one that the state before it bears out. -/
theorem stepKeepsInv : Obligations.StepKeepsInv := fun _ _ => step_keeps_inv

/-- Settles O13: the empty Memory is canonical and FAULT is empty. -/
theorem resetMeetsInv : Obligations.ResetMeetsInv := ⟨State.reset_inv, rfl⟩

/-- Settles O14: one transaction by the cases of `transact`, and a sequence by induction. -/
theorem hostKeepsInv : Obligations.HostKeepsInv :=
  ⟨fun _ op h => transact_keeps_inv h op, fun _ ops h => transactAll_keeps_inv h ops⟩

end Sys2Proof.Machine
end

section
/-! PROOFS. Control transfer (40_flow.md): CALL and RET through the stack (R80, R82), and the register
skips (R83 to R86, R88). -/

namespace Sys2Proof.Machine

/-- Two frames in a row write the parts that either of them lists. -/
theorem SameBut.trans_of_subset {ps qs rs : List Part} {s t u : State} (h₁ : SameBut ps s t)
    (h₂ : SameBut qs t u) (hps : ps ⊆ rs := by simp) (hqs : qs ⊆ rs := by simp) : SameBut rs s u :=
  (h₁.mono hps).trans (h₂.mono hqs)

/-! ### CALL and RET (R80, R82) -/

section

variable (s : State)

theorem exec_call_of_push_ok {nnn : Imm12} {s t : State} (h : s.push (zextImm nnn) = .ok t) :
    exec (.call nnn) s = .next t := by
  simp only [exec, execCall, h, State.settle_ok]

theorem exec_call_of_push_error {nnn : Imm12} {s : State} {e : ErrorRecord}
    (h : s.push (zextImm nnn) = .error e) : exec (.call nnn) s = .next (s.raise e) := by
  simp only [exec, execCall, h, State.settle_error]

/-- A push writes the entry at SP and no other (10_state.md R21). -/
theorem StackBut.set_stack (a : Word) (n : Fin 17) {j : Nat} (hj : j < 16) :
    StackBut j s { s with stack := s.stack.set j a hj, sp := n } := fun k hk => by
  simp [Ne.symm hk]

end

/-- Settles O18: the push of the target writes one entry of the stack, and on a full stack it raises. -/
theorem callPushesItsTarget : Obligations.CallPushesItsTarget := by
  refine fun nnn s => ⟨fun h => ?room, fun hfull hs => ?full⟩
  case room =>
    refine ⟨_, exec_call_of_push_ok (s.push_of_room _ h), rfl, ?_, StackBut.set_stack s _ _ h,
      SameBut.stack s _ _⟩
    rw [Vector.getElem_set_self, toNat_zextImm]
  case full =>
    have hsp : s.sp = 16 := Fin.ext hfull
    exact ⟨_, _, exec_call_of_push_error (s.push_of_full _ hsp), toNat_zextImm nnn, HaltedBy.raise hs _⟩

/-- Settles O19: the pop gives PC its entry and lowers SP, and on an empty stack it raises. -/
theorem returnPopsIntoPc : Obligations.ReturnPopsIntoPc := by
  refine fun s => ⟨fun h => ?entry, fun hempty hs => ?empty⟩
  case entry =>
    have hframe (a : Word) (n : Fin 17) : SameBut [.pc, .stack] s { s with sp := n, pc := a } :=
      (SameBut.stack s s.stack n).trans_of_subset (SameBut.pc { s with sp := n } a)
    exact ⟨_, exec_ret_of_pop_ok (s.pop_of_entry h), rfl, Nat.sub_add_cancel h, rfl, hframe _ _⟩
  case empty =>
    have hsp : s.sp = 0 := Fin.ext hempty
    exact ⟨_, exec_ret_of_pop_error (s.pop_of_empty hsp), HaltedBy.raise hs _⟩

/-! ### The register skips (R83 to R86, R88) -/

theorem exec_seImm (x : Nibble) (kk : Byte) (s : State) :
    exec (.seImm x kk) s = .next (s.skipIf (s.reg x == kk)) := rfl

theorem exec_sneImm (x : Nibble) (kk : Byte) (s : State) :
    exec (.sneImm x kk) s = .next (s.skipIf (s.reg x != kk)) := rfl

theorem exec_seReg (x y : Nibble) (s : State) :
    exec (.seReg x y) s = .next (s.skipIf (s.reg x == s.reg y)) := rfl

theorem exec_sneReg (x y : Nibble) (s : State) :
    exec (.sneReg x y) s = .next (s.skipIf (s.reg x != s.reg y)) := rfl

/-- A skip on a condition: 2 extra or nothing, and PC alone changes (R88). -/
theorem skipIf_spec (s : State) {c : Bool} {p : Prop} (h : p ↔ c = true) :
    (p → (s.skipIf c).pc.toNat = (s.pc.toNat + 2) % 65536) ∧ (¬ p → (s.skipIf c).pc = s.pc) ∧
    SameBut [.pc] s (s.skipIf c) := by
  obtain ⟨hskip, hstay⟩ := s.pc_skipIf h
  exact ⟨hskip, hstay, SameBut.skipIf s c⟩

/-- Settles O20: each is a skip on a comparison of bytes. -/
theorem skipsAddTwoOrNothing : Obligations.SkipsAddTwoOrNothing := by
  refine fun x y kk s => ⟨?seImm, ?sneImm, ?seReg, ?sneReg⟩
  case seImm => exact ⟨_, exec_seImm x kk s, skipIf_spec s beq_iff_eq.symm⟩
  case sneImm => exact ⟨_, exec_sneImm x kk s, skipIf_spec s bne_iff_ne.symm⟩
  case seReg => exact ⟨_, exec_seReg x y s, skipIf_spec s beq_iff_eq.symm⟩
  case sneReg => exact ⟨_, exec_sneReg x y s, skipIf_spec s bne_iff_ne.symm⟩

end Sys2Proof.Machine
end

section
/-! PROOFS. Register-immediate (41_immediate.md): the add (R101) and the random byte (R102). -/

namespace Sys2Proof.Machine

theorem exec_addImm (x : Nibble) (kk : Byte) (s : State) :
    exec (.addImm x kk) s = .next (s.addToGeneral x kk) := rfl

theorem exec_rnd (x : Nibble) (kk : Byte) (s : State) :
    exec (.rnd x kk) s = .next (rndWith (Config.randByte s.randDraws) x kk s.drawRand.2) := rfl

/-- `add_to_general` adds modulo 256 and writes one register (10_state.md R28, D9). -/
theorem addToGeneral_spec (s : State) (x : Nibble) (b : Byte) :
    ((s.addToGeneral x b).reg x).toNat = ((s.reg x).toNat + b.toNat) % 256 ∧
    RegsBut x s (s.addToGeneral x b) ∧ SameBut [.regs] s (s.addToGeneral x b) := by
  refine ⟨?_, RegsBut.setReg x s _, SameBut.setReg s x _⟩
  rw [State.addToGeneral, State.reg_setReg_self, BitVec.toNat_add]

/-- Settles O22: the add is the register file's `add_to_general`. -/
theorem addImmediateWraps : Obligations.AddImmediateWraps := fun x kk s =>
  ⟨_, exec_addImm x kk s, addToGeneral_spec s x kk⟩

theorem rndWith_spec (r : Byte) (x : Nibble) (kk : Byte) (s : State) :
    (rndWith r x kk s).reg x = kk &&& r ∧ RegsBut x s (rndWith r x kk s) ∧
    SameBut [.regs] s (rndWith r x kk s) :=
  ⟨s.reg_setReg_self x _, RegsBut.setReg x s _, SameBut.setReg s x _⟩

theorem getLsbD_and_of_mask {kk : Byte} {k : Nat} (h : kk.getLsbD k = false) (r : Byte) :
    (kk &&& r).getLsbD k = false := by
  rw [BitVec.getLsbD_and, h, Bool.false_and]

/-- Settles O23: after one draw the instruction is `rndWith` of the drawn byte, and a draw leaves every
register as it is. -/
theorem randomIsMasked : Obligations.RandomIsMasked := by
  refine fun x kk s => ⟨?_, fun r => rndWith_spec r x kk s⟩
  obtain ⟨hvalue, hregs, hframe⟩ := rndWith_spec (Config.randByte s.randDraws) x kk s.drawRand.2
  refine ⟨_, exec_rnd x kk s, hvalue, rfl, fun k hk => ?_, hregs,
    (SameBut.drawRand s).trans_of_subset hframe⟩
  rw [hvalue, getLsbD_and_of_mask hk]

end Sys2Proof.Machine
end

section
/-! PROOFS. Register-register (42_alu.md): the five that set VF (R115 to R119). VF is written first and the
result last, so that the result is what VF holds where x is F (R110, D8). -/

namespace Sys2Proof.Machine

/-! ### What the five write -/

theorem exec_addReg (x y : Nibble) (s : State) :
    exec (.addReg x y) s = .next (s.setFlagThenReg (carryFlag (s.reg x) (s.reg y)) x
      ((wideSum (s.reg x) (s.reg y)).extractLsb' 0 8)) := rfl

theorem exec_sub (x y : Nibble) (s : State) :
    exec (.sub x y) s =
      .next (s.setFlagThenReg (noBorrowFlag (s.reg x) (s.reg y)) x (s.reg x - s.reg y)) := rfl

theorem exec_shr (x y : Nibble) (s : State) :
    exec (.shr x y) s = .next (s.setFlagThenReg (shrFlag (s.reg x)) x (s.reg x >>> 1)) := rfl

theorem exec_subn (x y : Nibble) (s : State) :
    exec (.subn x y) s =
      .next (s.setFlagThenReg (noBorrowFlag (s.reg y) (s.reg x)) x (s.reg y - s.reg x)) := rfl

theorem exec_shl (x y : Nibble) (s : State) :
    exec (.shl x y) s = .next (s.setFlagThenReg (shlFlag (s.reg x)) x (s.reg x <<< 1)) := rfl

/-- The destination holds the result, also where it is VF; else VF holds the flag; no other register and
nothing else changes. -/
theorem setFlagThenReg_spec (s : State) (flag : Byte) (x : Nibble) (result : Byte) :
    (s.setFlagThenReg flag x result).reg x = result ∧
    (x ≠ 15 → (s.setFlagThenReg flag x result).reg 15 = flag) ∧
    (∀ z, z ≠ x → z ≠ 15 → (s.setFlagThenReg flag x result).reg z = s.reg z) ∧
    SameBut [.regs] s (s.setFlagThenReg flag x result) := by
  refine ⟨?_, s.vf_setFlagThenReg flag result, fun z => s.reg_setFlagThenReg_other flag x result,
    SameBut.setFlagThenReg s flag x result⟩
  rw [State.reg_setFlagThenReg, if_pos rfl]

/-! ### The results as numbers -/

theorem toNat_low_wideSum (a b : Byte) :
    ((wideSum a b).extractLsb' 0 8).toNat = (a.toNat + b.toNat) % 256 := by
  rw [BitVec.extractLsb'_toNat, toNat_wideSum]
  rfl

theorem toNat_sub_byte (a b : Byte) : (a - b).toNat = (a.toNat + 256 - b.toNat) % 256 := by
  bv_omega

theorem toNat_shr_one (a : Byte) : (a >>> 1).toNat = a.toNat / 2 := by
  rw [BitVec.toNat_ushiftRight, Nat.shiftRight_eq_div_pow]

theorem toNat_shl_one (a : Byte) : (a <<< 1).toNat = 2 * a.toNat % 256 := by
  rw [BitVec.toNat_shiftLeft, Nat.shiftLeft_eq, Nat.mul_comm]

/-! ### The obligations -/

/-- Settles O26: the result is the low byte of the widened sum, and the flag compares the sum. -/
theorem addSetsCarry : Obligations.AddSetsCarry := by
  intro x y s
  obtain ⟨hresult, hflag, hframe⟩ := setFlagThenReg_spec s (carryFlag (s.reg x) (s.reg y)) x
    ((wideSum (s.reg x) (s.reg y)).extractLsb' 0 8)
  refine ⟨_, exec_addReg x y s, ?_, fun hx => ?_, hframe⟩
  · rw [hresult, toNat_low_wideSum]
  · rw [hflag hx, carryFlag_eq]

/-- A difference written with its flag. -/
theorem setFlagThenReg_difference (s : State) (x : Nibble) (a b : Byte) :
    let t := s.setFlagThenReg (noBorrowFlag a b) x (a - b)
    (t.reg x).toNat = (a.toNat + 256 - b.toNat) % 256 ∧
    (x ≠ 15 → t.reg 15 = if a.toNat < b.toNat then 0 else 1) ∧
    (∀ z, z ≠ x → z ≠ 15 → t.reg z = s.reg z) ∧ SameBut [.regs] s t := by
  obtain ⟨hresult, hflag, hframe⟩ := setFlagThenReg_spec s (noBorrowFlag a b) x (a - b)
  refine ⟨?_, fun hx => ?_, hframe⟩
  · rw [hresult, toNat_sub_byte]
  · rw [hflag hx, noBorrowFlag_eq]

/-- Settles O27: both write a difference and its flag, with the operands in either order. -/
theorem subtractSetsNoBorrow : Obligations.SubtractSetsNoBorrow := fun x y s =>
  ⟨⟨_, exec_sub x y s, setFlagThenReg_difference s x (s.reg x) (s.reg y)⟩,
    ⟨_, exec_subn x y s, setFlagThenReg_difference s x (s.reg y) (s.reg x)⟩⟩

/-- Settles O28: each writes the shifted byte and the flag of the bit shifted out, and y does not occur. -/
theorem shiftsSetTheBitShiftedOut : Obligations.ShiftsSetTheBitShiftedOut := by
  refine fun x y s => ⟨⟨_, exec_shr x y s, ?shr⟩, ⟨_, exec_shl x y s, ?shl⟩⟩
  case shr =>
    obtain ⟨hresult, hflag, hframe⟩ := setFlagThenReg_spec s (shrFlag (s.reg x)) x (s.reg x >>> 1)
    exact ⟨by rw [hresult, toNat_shr_one], fun hx => by rw [hflag hx, toNat_shrFlag], hframe⟩
  case shl =>
    obtain ⟨hresult, hflag, hframe⟩ := setFlagThenReg_spec s (shlFlag (s.reg x)) x (s.reg x <<< 1)
    exact ⟨by rw [hresult, toNat_shl_one], fun hx => by rw [hflag hx, toNat_shlFlag], hframe⟩

end Sys2Proof.Machine
end

section
/-! PROOFS. Index register and memory (43_index_memory.md): the arithmetic on I (R131, R132), and the three
instructions that access Memory, inside it and past its end (R133, R136 to R138). -/

namespace Sys2Proof.Machine

/-! ### The arithmetic on I (R131, R132) -/

theorem exec_addI (x : Nibble) (s : State) :
    exec (.addI x) s = .next { s with i := s.i + zextByte (s.reg x) } := rfl

theorem exec_ldF (x : Nibble) (s : State) :
    exec (.ldF x) s = .next { s with i := glyphAddress (lowNibble (s.reg x)) } := rfl

/-- The address of a glyph does not wrap: the digit is at most 15 (R132). -/
theorem toNat_glyphAddress (d : Nibble) : (glyphAddress d).toNat = 5 * d.toNat := by
  have := d.isLt
  have hsize : Config.glyphSize = 5 := rfl
  rw [glyphAddress, BitVec.toNat_ofNat, Nat.zero_add, hsize]
  exact Nat.mod_eq_of_lt (by omega)

/-- Settles O30: the sum of two words is modulo 65536. -/
theorem addIndexWrapsAtSixteenBits : Obligations.AddIndexWrapsAtSixteenBits := by
  refine fun x s => ⟨_, exec_addI x s, ?_, SameBut.index s _⟩
  rw [BitVec.toNat_add, toNat_zextByte]

/-- Settles O31: the address of the glyph of the low nibble. -/
theorem glyphIsFiveTimesTheDigit : Obligations.GlyphIsFiveTimesTheDigit := by
  refine fun x s => ⟨_, exec_ldF x s, ?_, SameBut.index s _⟩
  rw [toNat_glyphAddress, toNat_lowNibble]

/-! ### What the three instructions do inside Memory -/

section

variable {s : State} {x : Nibble}

theorem exec_ldB_of_inside (h : s.i.toNat + 3 ≤ Config.memSize) :
    exec (.ldB x) s = .next { s with mem := s.mem.writeBlock s.i.toNat (bcd (s.reg x)) } :=
  congrArg Host.Outcome.next (s.settle_guardSpan_ok (.inr h) _)

theorem exec_storeRegs_of_inside (h : s.i.toNat + (x.toNat + 1) ≤ Config.memSize) :
    exec (.storeRegs x) s = .next { s with
      mem := s.mem.writeBlock s.i.toNat (s.regsUpTo x)
      i := s.i + BitVec.ofNat 16 (x.toNat + 1) } :=
  congrArg Host.Outcome.next (s.settle_guardSpan_ok (.inr h) _)

theorem exec_loadRegs_of_inside (h : s.i.toNat + (x.toNat + 1) ≤ Config.memSize) :
    exec (.loadRegs x) s = .next (s.setRegs 0 (s.mem.readBlock s.i.toNat (x.toNat + 1))) :=
  congrArg Host.Outcome.next (s.settle_guardSpan_ok (.inr h) _)

/-- Byte `k` of a block just written from `a` up. -/
theorem read_writeBlock_inside (m : Memory) (a : Nat) {bs : List Byte} {k : Nat} (hk : k < bs.length) :
    (m.writeBlock a bs).read (a + k) = bs.getD k 0 := by
  rw [Memory.read_writeBlock, if_pos (by omega), Nat.add_sub_cancel_left]

/-- Of a block of registers written to Memory, the byte at `a + y` is `V[y]` (R137). -/
theorem read_writeBlock_regsUpTo (m : Memory) (a : Nat) {y : Nibble} (hy : y.toNat ≤ x.toNat) :
    (m.writeBlock a (s.regsUpTo x)).read (a + y.toNat) = s.reg y := by
  rw [read_writeBlock_inside m a (by rw [State.length_regsUpTo]; omega), State.getD_regsUpTo s x _ hy,
    BitVec.ofNat_toNat, BitVec.setWidth_eq]

/-- After `n` bytes from `a` are loaded into the registers from V[0] up, `V[y]` is the byte at `a + y` for
`y` below `n`, and as before from `n` on (R138). -/
theorem reg_setRegs_readBlock (m : Memory) (a : Nat) {n : Nat} (hn : n ≤ 16) (y : Nibble) :
    (s.setRegs 0 (m.readBlock a n)).reg y = if y.toNat < n then m.read (a + y.toNat) else s.reg y := by
  rw [State.reg_setRegs s 0 _ (by rw [Memory.length_readBlock]; omega), Memory.length_readBlock]
  by_cases hy : y.toNat < n
  · rw [if_pos (by omega), if_pos hy, Nat.sub_zero, Memory.getD_readBlock m a n _ hy]
  · rw [if_neg (by omega), if_neg hy]

end

/-! ### The obligations -/

/-- Settles O33: the three bytes written are the decimal digits. -/
theorem storeBcdWritesThreeDigits : Obligations.StoreBcdWritesThreeDigits := by
  intro x s hin
  obtain ⟨h, t, o, hbcd, hh, ht, ho⟩ := exists_bcd_eq (s.reg x)
  have hexec := exec_ldB_of_inside (x := x) (show s.i.toNat + 3 ≤ Config.memSize from hin)
  rw [hbcd] at hexec
  refine ⟨_, hexec, ?hundreds, ?tens, ?ones, MemBut.writeBlock s _ [h, t, o], SameBut.mem s _⟩
  case hundreds => rw [← hh]; exact congrArg _ (read_writeBlock_inside s.mem s.i.toNat (k := 0) (by simp))
  case tens => rw [← ht]; exact congrArg _ (read_writeBlock_inside s.mem s.i.toNat (k := 1) (by simp))
  case ones => rw [← ho]; exact congrArg _ (read_writeBlock_inside s.mem s.i.toNat (k := 2) (by simp))

/-- Settles O34: the block written is that of the registers, and I advances by its length. -/
theorem storeRegistersWritesTheBlock : Obligations.StoreRegistersWritesTheBlock := by
  intro x s hin
  have hspan : s.i.toNat + (x.toNat + 1) ≤ Config.memSize := hin
  have hframe (m : Memory) (a : Word) : SameBut [.mem, .index] s { s with mem := m, i := a } :=
    (SameBut.mem s m).trans_of_subset (SameBut.index { s with mem := m } a)
  have hbytes := MemBut.writeBlock s s.i.toNat (s.regsUpTo x)
  rw [State.length_regsUpTo] at hbytes
  refine ⟨_, exec_storeRegs_of_inside hspan, fun y hy => read_writeBlock_regsUpTo _ _ hy, ?_,
    hbytes, hframe _ _⟩
  rw [BitVec.toNat_add, BitVec.toNat_ofNat]
  omega

/-- Settles O35: the registers up to V[x] take the bytes of the block, the others stay. -/
theorem loadRegistersReadsTheBlock : Obligations.LoadRegistersReadsTheBlock := by
  intro x s hin
  have hspan : s.i.toNat + (x.toNat + 1) ≤ Config.memSize := hin
  have hreg := reg_setRegs_readBlock (s := s) s.mem s.i.toNat x.isLt
  refine ⟨_, exec_loadRegs_of_inside hspan, fun y hy => ?_, fun y hy => ?_, SameBut.setRegs s _ _⟩
  · rw [hreg, if_pos (Nat.lt_succ_of_le hy)]
  · rw [hreg, if_neg (Nat.not_lt.mpr (Nat.succ_le_of_lt hy))]

/-- Settles O36: the store puts the registers where the load reads them. -/
theorem storedBlockLoadsBack : Obligations.StoredBlockLoadsBack := by
  intro x s t u hin hstore hmem hi
  obtain ⟨t', hstore', hstored, -⟩ := storeRegistersWritesTheBlock x s hin
  obtain rfl : t' = t := Host.Outcome.next.inj (hstore'.symm.trans hstore)
  obtain ⟨r, hload, hloaded, -⟩ := loadRegistersReadsTheBlock x u (by rwa [hi])
  refine ⟨r, hload, fun y hy => ?_⟩
  rw [hloaded y hy, hmem, hi, hstored y hy]

/-- Settles O37: each of the four checks its span first, and the span reaches past the end. -/
theorem accessOutsideMemoryHalts : Obligations.AccessOutsideMemoryHalts := by
  intro x y n s hs
  have hsize : Config.memSize = 4096 := rfl
  have hea : s.ea = s.i.toNat := rfl
  refine ⟨fun h => ⟨_, rfl, ?bcd⟩, fun h => ⟨⟨_, rfl, ?store⟩, ⟨_, rfl, ?load⟩⟩,
    fun hn h => ⟨_, rfl, ?draw⟩⟩
  case bcd => exact HaltedBy.guardSpan hs (by decide) (by omega) _
  case store => exact HaltedBy.guardSpan hs (Nat.succ_ne_zero _) (by omega) _
  case load => exact HaltedBy.guardSpan hs (Nat.succ_ne_zero _) (by omega) _
  case draw =>
    have hrows : n.toNat ≠ 0 := fun h0 => hn (BitVec.eq_of_toNat_eq h0)
    exact HaltedBy.guardSpan hs hrows (by omega) _

end Sys2Proof.Machine
end

section
/-! PROOFS. Display (44_display.md): a sprite drawn once (R152, R153), and drawn twice. -/

namespace Sys2Proof.Machine

/-! ### A sprite drawn (R152, R153) -/

section

variable {s t : State} {x y n : Nibble}

theorem exec_drw_of_inside (h : n.toNat = 0 ∨ s.i.toNat + n.toNat ≤ Config.memSize) :
    exec (.drw x y n) s = .next (s.drawSprite x y (s.mem.readBlock s.i.toNat n.toNat)) :=
  congrArg Host.Outcome.next (s.settle_guardSpan_ok h _)

/-- The rows of the sprite at I, drawn from the start column and row, cover the sprite's pixels: reducing
the start first makes no difference to a pixel that is wrapped (D14). -/
theorem spriteCovers_iff (s : State) (x y n : Nibble) (col row : Nat) :
    SpriteCovers s x y n col row ↔
      ∃ m c, m < (s.mem.readBlock s.i.toNat n.toNat).length ∧ c < 8 ∧
        ((s.mem.readBlock s.i.toNat n.toNat).getD m 0).getLsbD (7 - c) = true ∧
        col = (startColumn (s.reg x) + c) % 64 ∧ row = (startRow (s.reg y) + m) % 32 := by
  simp only [Memory.length_readBlock, startColumn, startRow, Nat.mod_add_mod]
  constructor
  · rintro ⟨m, c, hm, hc, hbit, hcol, hrow⟩
    exact ⟨m, c, hm, hc, by rwa [Memory.getD_readBlock _ _ _ _ hm], hcol, hrow⟩
  · rintro ⟨m, c, hm, hc, hbit, hcol, hrow⟩
    exact ⟨m, c, hm, hc, by rwa [Memory.getD_readBlock _ _ _ _ hm] at hbit, hcol, hrow⟩

/-- What a sprite drawn on the display of `s` does, pixel by pixel, and when it erases one. -/
theorem drawn_spec (s : State) (x y n : Nibble) :
    (∀ col row, col < 64 → row < 32 →
      (SpriteCovers s x y n col row →
        (s.drawn x y (s.mem.readBlock s.i.toNat n.toNat)).d.pixel col row = !s.display.pixel col row) ∧
      (¬ SpriteCovers s x y n col row →
        (s.drawn x y (s.mem.readBlock s.i.toNat n.toNat)).d.pixel col row = s.display.pixel col row)) ∧
    ((s.drawn x y (s.mem.readBlock s.i.toNat n.toNat)).erased = true ↔
      ∃ col row, col < 64 ∧ row < 32 ∧ SpriteCovers s x y n col row ∧
        s.display.pixel col row = true) := by
  have hrows : (s.mem.readBlock s.i.toNat n.toNat).length < 32 := by
    have := n.isLt
    rw [Memory.length_readBlock]
    omega
  obtain ⟨hpixel, herased⟩ := Canvas.drawRows_spec (startColumn (s.reg x)) (startRow (s.reg y)) _ hrows
    ⟨s.display, false⟩ _ (spriteCovers_iff s x y n)
  refine ⟨hpixel, ?_⟩
  rw [State.drawn, herased]
  simp

/-- Where a sprite's place, its rows and its length are the same, it covers the same pixels. -/
theorem SpriteCovers.congr (hmem : ∀ a, t.mem.read a = s.mem.read a) (hi : t.i = s.i)
    (hx : t.reg x = s.reg x) (hy : t.reg y = s.reg y) (col row : Nat) :
    SpriteCovers t x y n col row ↔ SpriteCovers s x y n col row := by
  simp only [SpriteCovers, hmem, hi, hx, hy]

end

/-! ### The obligations -/

/-- Settles O39: the sprite's rows toggle what they cover, and VF, written last, is the erasure. -/
theorem drawXorsTheSprite : Obligations.DrawXorsTheSprite := by
  intro x y n s hin
  have hspan : n.toNat = 0 ∨ s.i.toNat + n.toNat ≤ Config.memSize := hin.imp_left (congrArg _)
  obtain ⟨hpixel, herased⟩ := drawn_spec s x y n
  have hflag : (s.drawSprite x y (s.mem.readBlock s.i.toNat n.toNat)).reg 15 =
      collisionFlag (s.drawn x y (s.mem.readBlock s.i.toNat n.toNat)).erased := by
    rw [State.reg_drawSprite]; exact if_pos rfl
  refine ⟨_, exec_drw_of_inside hspan, fun col row hcol hrow => ?pixels, ?collision, ?noCollision,
    fun z hz => ?others, SameBut.drawSprite s x y _⟩
  case pixels =>
    rw [State.pixel_rowMajor _ row hcol, State.pixel_rowMajor _ row hcol]
    exact hpixel col row hcol hrow
  case collision =>
    rintro ⟨col, row, hcol, hrow, hcov, hon⟩
    rw [State.pixel_rowMajor _ row hcol] at hon
    rw [hflag, herased.mpr ⟨col, row, hcol, hrow, hcov, hon⟩]
    rfl
  case noCollision =>
    intro hoff
    have hnone : (s.drawn x y (s.mem.readBlock s.i.toNat n.toNat)).erased = false := by
      refine Bool.eq_false_iff.mpr fun h => ?_
      obtain ⟨col, row, hcol, hrow, hcov, hon⟩ := herased.mp h
      rw [← State.pixel_rowMajor _ row hcol, hoff col row hcol hrow hcov] at hon
      cases hon
    rw [hflag, hnone]
    rfl
  case others => rw [State.reg_drawSprite]; exact if_neg hz

/-- Settles O40: the first draw leaves the sprite, its place and so the pixels it covers as they are, and a
pixel toggled twice is as before. -/
theorem drawTwiceRestores : Obligations.DrawTwiceRestores := by
  intro x y n s t hx hy hin hfirst
  obtain ⟨t', hfirst', hpixel, -, -, hregs, hframe⟩ := drawXorsTheSprite x y n s hin
  obtain rfl : t' = t := Host.Outcome.next.inj (hfirst'.symm.trans hfirst)
  have hi : t'.i = s.i := hframe .index (by simp)
  have hmem : ∀ a, t'.mem.read a = s.mem.read a := hframe .mem (by simp)
  have hcov : ∀ col row, SpriteCovers t' x y n col row ↔ SpriteCovers s x y n col row :=
    SpriteCovers.congr hmem hi (hregs x hx) (hregs y hy)
  obtain ⟨u, hsecond, hpixel', hcollision, hnoCollision, -⟩ := drawXorsTheSprite x y n t' (by rwa [hi])
  refine ⟨u, hsecond, fun j hj => ?restored, ?collision, ?noCollision⟩
  case restored =>
    obtain ⟨htoggled, hkept⟩ := hpixel (j % 64) (j / 64) (by omega) (by omega)
    obtain ⟨htoggled', hkept'⟩ := hpixel' (j % 64) (j / 64) (by omega) (by omega)
    have hj' : j / 64 * 64 + j % 64 = j := Nat.div_add_mod' j 64
    rw [hj'] at htoggled hkept htoggled' hkept'
    by_cases hc : SpriteCovers s x y n (j % 64) (j / 64)
    · rw [htoggled' ((hcov _ _).mpr hc), htoggled hc, Bool.not_not]
    · rw [hkept' (fun h => hc ((hcov _ _).mp h)), hkept hc]
  case collision =>
    rintro ⟨col, row, hcol, hrow, hc, hoff⟩
    refine hcollision ⟨col, row, hcol, hrow, (hcov _ _).mpr hc, ?_⟩
    rw [(hpixel col row hcol hrow).1 hc, hoff, Bool.not_false]
  case noCollision =>
    refine fun hon => hnoCollision fun col row hcol hrow hc => ?_
    have hc' := (hcov _ _).mp hc
    rw [(hpixel col row hcol hrow).1 hc', hon col row hcol hrow hc', Bool.not_true]

end Sys2Proof.Machine
end

section
/-! PROOFS. Timers and keypad (45_timer_keypad.md): the key skips (R161, R162) and the key wait (R164), each
with one sample of KEYS (60_exceptions.md R200). -/

namespace Sys2Proof.Machine

theorem exec_skp (x : Nibble) (s : State) :
    exec (.skp x) s = .next (skpWith (Config.keysInput s.keySamples) x s.sampleKeys.2) := rfl

theorem exec_sknp (x : Nibble) (s : State) :
    exec (.sknp x) s = .next (sknpWith (Config.keysInput s.keySamples) x s.sampleKeys.2) := rfl

theorem exec_ldVxK (x : Nibble) (s : State) :
    exec (.ldVxK x) s = .next (waitKeyWith (Config.keysInput s.keySamples) x s.sampleKeys.2) := rfl

/-- `SKP` is a skip on the key of the low nibble being down (R161). -/
theorem skpWith_spec (keys : Word) (x : Nibble) (s : State) :
    let down := keys.getLsbD ((s.reg x).toNat % 16) = true
    (down → (skpWith keys x s).pc.toNat = (s.pc.toNat + 2) % 65536) ∧
    (¬ down → (skpWith keys x s).pc = s.pc) ∧ SameBut [.pc] s (skpWith keys x s) :=
  skipIf_spec s (by rw [keyDown_eq])

/-- `SKNP` is a skip on that key being up (R162). -/
theorem sknpWith_spec (keys : Word) (x : Nibble) (s : State) :
    let up := ¬ keys.getLsbD ((s.reg x).toNat % 16) = true
    (up → (sknpWith keys x s).pc.toNat = (s.pc.toNat + 2) % 65536) ∧
    (¬ up → (sknpWith keys x s).pc = s.pc) ∧ SameBut [.pc] s (sknpWith keys x s) :=
  skipIf_spec s (by rw [keyDown_eq, Bool.not_eq_true, Bool.not_eq_true'])

/-- Settles O41: the skips on a given sample, and the sample itself, which changes its counter alone. -/
theorem keySkipsTestOneKey : Obligations.KeySkipsTestOneKey := by
  refine fun x s => ⟨?skp, ?sknp, fun keys => ⟨?skpWith, ?sknpWith⟩⟩
  case skp =>
    obtain ⟨hskip, hstay, hframe⟩ := skpWith_spec (Config.keysInput s.keySamples) x s.sampleKeys.2
    exact ⟨_, exec_skp x s, ⟨hskip, hstay⟩, rfl, hframe.after_sampleKeys⟩
  case sknp =>
    obtain ⟨hskip, hstay, hframe⟩ := sknpWith_spec (Config.keysInput s.keySamples) x s.sampleKeys.2
    exact ⟨_, exec_sknp x s, ⟨hskip, hstay⟩, rfl, hframe.after_sampleKeys⟩
  case skpWith =>
    obtain ⟨hskip, hstay, hframe⟩ := skpWith_spec keys x s
    exact ⟨⟨hskip, hstay⟩, hframe⟩
  case sknpWith =>
    obtain ⟨hskip, hstay, hframe⟩ := sknpWith_spec keys x s
    exact ⟨⟨hskip, hstay⟩, hframe⟩

theorem waitKeyWith_of_no_key (x : Nibble) (s : State) : waitKeyWith 0 x s = s.retreatPc := if_pos rfl

theorem waitKeyWith_of_key {keys : Word} (h : keys ≠ 0) (x : Nibble) (s : State) :
    waitKeyWith keys x s = s.setReg x (lowestKey keys) := if_neg h

theorem waitKeyWith_keySamples (keys : Word) (x : Nibble) (s : State) :
    (waitKeyWith keys x s).keySamples = s.keySamples := by
  unfold waitKeyWith
  split <;> rfl

/-- With no key down PC alone moves back by 2; else V[x] alone takes the lowest key (R164, D16). -/
theorem waitKeyWith_spec (keys : Word) (x : Nibble) (s : State) :
    let t := waitKeyWith keys x s
    (keys = 0 → t.pc.toNat = (s.pc.toNat + 65534) % 65536 ∧ ∀ y, t.reg y = s.reg y) ∧
    (keys ≠ 0 → t.pc = s.pc ∧ RegsBut x s t ∧ (t.reg x).toNat < 16 ∧
      keys.getLsbD (t.reg x).toNat = true ∧
      ∀ k, k < (t.reg x).toNat → keys.getLsbD k = false) := by
  refine ⟨?noKey, fun hkey => ?key⟩
  case noKey =>
    rintro rfl
    rw [waitKeyWith_of_no_key, State.retreatPc_pc]
    exact ⟨by bv_omega, s.reg_retreatPc⟩
  case key =>
    rw [waitKeyWith_of_key hkey, State.reg_setReg_self]
    exact ⟨rfl, RegsBut.setReg x s _, lowestKey_spec hkey⟩

/-- Settles O42: the wait on a given sample, and the sample itself, which changes its counter alone. -/
theorem keyWaitTakesTheLowestKey : Obligations.KeyWaitTakesTheLowestKey := by
  refine fun x s => ⟨⟨_, exec_ldVxK x s, waitKeyWith_spec _ x s.sampleKeys.2, ?_,
    (SameBut.waitKeyWith _ x s.sampleKeys.2).after_sampleKeys⟩,
    fun keys => ⟨waitKeyWith_spec keys x s, SameBut.waitKeyWith keys x s⟩⟩
  rw [waitKeyWith_keySamples, State.sampleKeys_keySamples]

end Sys2Proof.Machine
end

section
/-! PROOFS. Rules of the whole machine (10_state.md): an instruction writes its row of the read/write table
(R26), and who writes VF (R11). -/

namespace Sys2Proof.Machine

/-! ### The read/write table (R26) -/

theorem fault_notMem_writes (i : Instr) : Part.fault ∉ writes i := by
  cases i <;> simp [writes]

/-- Settles O44: the frame of every instruction, and FAULT is in no row of the table. -/
theorem instructionsWriteOnlyTheirRow : Obligations.InstructionsWriteOnlyTheirRow := by
  intro i s t hs h
  obtain ⟨u, hu, hframe⟩ := exec_sameBut_or_raise i s
  obtain rfl : u = t := Host.Outcome.next.inj (hu.symm.trans h)
  obtain hframe | ⟨e, rfl⟩ := hframe
  · have hfault : u.fault = s.fault := hframe .fault (fault_notMem_writes i)
    exact .inl ⟨hfault.trans hs, hframe⟩
  · exact .inr ⟨e, HaltedBy.raise hs e⟩

/-! ### Who writes VF (R11) -/

section

variable {s t : State} {x : Nibble}

/-- A write of one register that changes VF is a write of V[15]. -/
theorem eq_15_of_setReg {b : Byte} (h : (s.setReg x b).reg 15 ≠ s.reg 15) : x = 15 := by
  by_contra hx
  exact h (RegsBut.setReg x s b 15 (Ne.symm hx))

/-- A key wait that changes VF has x = 15. -/
theorem eq_15_of_waitKeyWith {keys : Word} (h : (waitKeyWith keys x s).reg 15 ≠ s.reg 15) : x = 15 := by
  by_cases hk : keys = 0
  · rw [hk, waitKeyWith_of_no_key, State.reg_retreatPc] at h
    exact absurd rfl h
  · rw [waitKeyWith_of_key hk] at h
    exact eq_15_of_setReg h

/-- A load of the block V[0] .. V[x] that changes VF has x = 15. -/
theorem eq_15_of_loadRegs (h : exec (.loadRegs x) s = .next t) (hne : t.reg 15 ≠ s.reg 15) : x = 15 := by
  by_contra hx
  have hlast : ¬ (15 : Nibble).toNat < x.toNat + 1 := by bv_omega
  obtain rfl : s.settle (guardSpan s.ea (x.toNat + 1) _) = t := Host.Outcome.next.inj h
  rw [State.settle_guardSpan] at hne
  split at hne
  · rw [reg_setRegs_readBlock s.mem s.ea x.isLt, if_neg hlast] at hne
    exact hne rfl
  · exact hne rfl

end

/-- Settles O48: an instruction whose row lists no register leaves VF; of the others, the flag-setting ones
are named, and every one with a named destination leaves VF unless it is V[15]. -/
theorem flagIsWrittenOnlyBySix : Obligations.FlagIsWrittenOnlyBySix := by
  intro i s t h hne
  have hrow : Part.regs ∈ writes i := by
    by_contra hregs
    exact hne (exec_keeps_part h hregs (by simp) 15)
  cases i with
  | addReg x y => exact .inl ⟨x, y, .inl rfl⟩
  | sub x y => exact .inl ⟨x, y, .inr (.inl rfl)⟩
  | shr x y => exact .inl ⟨x, y, .inr (.inr (.inl rfl))⟩
  | subn x y => exact .inl ⟨x, y, .inr (.inr (.inr (.inl rfl)))⟩
  | shl x y => exact .inl ⟨x, y, .inr (.inr (.inr (.inr rfl)))⟩
  | drw x y n => exact .inr (.inl ⟨x, y, n, rfl⟩)
  | ldImm | addImm | rnd | ldReg | orReg | andReg | xorReg | ldVxDt =>
    cases h
    obtain rfl := eq_15_of_setReg hne
    simp
  | ldVxK x =>
    cases h
    obtain rfl := eq_15_of_waitKeyWith hne
    simp
  | loadRegs x =>
    obtain rfl := eq_15_of_loadRegs h hne
    simp
  | _ => simp [writes] at hrow

end Sys2Proof.Machine
end

section
/-! PROOFS. Memory, reset and the host's transactions: a fetch after a store (20_memory.md R49, R56), load
(R47), reset (10_state.md R27), tick (60_exceptions.md R196), the stack and the registers (10_state.md R21,
R22, R28). -/

namespace Sys2Proof.Machine

/-- Settles O50: the two writes are read back at PC and PC + 1, and the first is the more significant. -/
theorem fetchSeesTheStoredWord : Obligations.FetchSeesTheStoredWord := by
  intro s t u hi lo hpc ht hu
  obtain rfl := State.memWrite_ok ht
  obtain rfl := State.memWrite_ok hu
  refine ⟨_, State.fetch_ok _ hpc, ?_⟩
  rw [toNat_joinBytes, Memory.read_write_same, Memory.read_write_ne _ _ (Nat.ne_of_lt (Nat.lt_succ_self _)),
    Memory.read_write_same]

/-! ### Reset and tick -/

/-- Settles O51: reset answers the reset state but for the two counters, and that state is zero. -/
theorem resetLeavesZero : Obligations.ResetLeavesZero := by
  intro s
  have hcounters (d k : Nat) : SameBut [.draws, .samples] State.reset
      { State.reset with randDraws := d, keySamples := k } := by
    intro p hp
    cases p <;> simp [Part.Same, State.pixel, State.reg] at hp ⊢
  refine ⟨rfl, hcounters _ _, fun y => ?reg, rfl, rfl, rfl, rfl, rfl, fun k => ?entry, fun _ => rfl,
    fun j _ => Display.pixel_off (j % 64) (j / 64), rfl⟩
  case reg => exact Vector.getElem_replicate _
  case entry => exact Vector.getElem_replicate _

/-- Settles O52: a tick of a running engine counts both timers down and writes nothing else. -/
theorem tickCountsDown : Obligations.TickCountsDown := by
  intro s hs
  have hframe (b c : Byte) : SameBut [.dt, .st] s { s with dt := b, st := c } :=
    (SameBut.dt s b).trans_of_subset (SameBut.st { s with dt := b } c)
  exact ⟨_, tick_of_running hs, toNat_countDown s.dt, toNat_countDown s.st, hframe _ _⟩

/-! ### The ends of the host's mutators in a running state -/

section

variable {s : State}

theorem replyState_quietly_of_ok (hs : s.Running) {r : Except ErrorRecord State} {t : State}
    (h : r = .ok t) : s.replyState (quietly r) = (t, .done) := by
  rw [h, quietly, State.replyState_of_ok hs]

theorem replyState_quietly_of_error (hs : s.Running) {r : Except ErrorRecord State} {e : ErrorRecord}
    (h : r = .error e) : s.replyState (quietly r) = (s.raise e, .failed e) := by
  rw [h, quietly, State.replyState_of_error hs]

end

/-! ### load (20_memory.md R47) -/

theorem load_of_short (s : State) {bytes : List Byte} (h : bytes.length ≤ Config.romMax) :
    s.load bytes = .ok { s with mem := s.mem.writeBlock Config.progBase bytes } := if_neg (Nat.not_lt.mpr h)

theorem load_of_long (s : State) {bytes : List Byte} (h : Config.romMax < bytes.length) :
    s.load bytes = .error (.romTooLarge bytes.length) := if_pos h

/-- Settles O53: the image is a block written at 512, and a longer one raises. -/
theorem loadCopiesTheImage : Obligations.LoadCopiesTheImage := fun s bytes hs =>
  ⟨fun h => ⟨_, replyState_quietly_of_ok hs (load_of_short s h),
      fun _ hk => read_writeBlock_inside s.mem Config.progBase hk,
      MemBut.writeBlock s Config.progBase bytes, SameBut.mem s _⟩,
    fun h => ⟨_, replyState_quietly_of_error hs (load_of_long s h), HaltedBy.raise hs _⟩⟩

/-! ### The stack (10_state.md R21, R22) -/

section

variable (s : State)

theorem push_ok_iff (a : Word) : (∃ t, s.push a = .ok t) ↔ s.sp.val < 16 := by
  refine ⟨fun ⟨t, ht⟩ => ?_, fun h => ⟨_, s.push_of_room a h⟩⟩
  by_contra hfull
  rw [s.push_of_full a (Fin.ext (by have := s.sp.isLt; simp; omega))] at ht
  cases ht

theorem pop_ok_iff : (∃ t, s.pop = .ok t) ↔ 0 < s.sp.val := by
  refine ⟨fun ⟨t, ht⟩ => ?_, fun h => ⟨_, s.pop_of_entry h⟩⟩
  by_contra hempty
  rw [s.pop_of_empty (Fin.ext (Nat.eq_zero_of_not_pos hempty))] at ht
  cases ht

/-- A pop after a push answers the pushed address; the entry that the push wrote is all that differs. -/
theorem pop_of_push_ok {a : Word} {t : State} (h : s.push a = .ok t) :
    ∃ u, t.pop = .ok (a, u) ∧ u.sp = s.sp ∧ SameBut [.stack] s u := by
  have hroom : s.sp.val < 16 := (push_ok_iff s a).mp ⟨t, h⟩
  rw [s.push_of_room a hroom] at h
  cases h
  refine ⟨{ s with stack := s.stack.set s.sp.val a hroom }, (State.pop_of_entry _ (Nat.succ_pos _)).trans ?_,
    rfl, SameBut.stack s _ s.sp⟩
  simp

end

/-- Settles O54: a push needs room, a pop an entry, and the pop reads the entry that the push wrote. -/
theorem pushThenPopReturns : Obligations.PushThenPopReturns := fun s a =>
  ⟨push_ok_iff s a, pop_ok_iff s, fun _ h => pop_of_push_ok s h⟩

/-! ### The registers (10_state.md R28) -/

section

variable (s : State) {k : Nat}

theorem getV_toNat (x : Nibble) : s.getV x.toNat = .ok (s.reg x) := by
  rw [State.getV, if_pos x.isLt, BitVec.ofNat_toNat, BitVec.setWidth_eq]

theorem setV_toNat (x : Nibble) (b : Byte) : s.setV x.toNat b = .ok (s.setReg x b) := by
  rw [State.setV, if_pos x.isLt, BitVec.ofNat_toNat, BitVec.setWidth_eq]

theorem addV_toNat (x : Nibble) (b : Byte) : s.addV x.toNat b = .ok (s.addToGeneral x b) := by
  rw [State.addV, if_pos x.isLt, BitVec.ofNat_toNat, BitVec.setWidth_eq]

theorem getV_of_le (h : 16 ≤ k) : s.getV k = .error (.outOfBounds k) := if_neg (Nat.not_lt.mpr h)

theorem setV_of_le (h : 16 ≤ k) (b : Byte) : s.setV k b = .error (.outOfBounds k) :=
  if_neg (Nat.not_lt.mpr h)

theorem addV_of_le (h : 16 ≤ k) (b : Byte) : s.addV k b = .error (.outOfBounds k) :=
  if_neg (Nat.not_lt.mpr h)

/-- An accessor answers the register in every state, halted or not (R28, R188). -/
theorem transact_getV (x : Nibble) : transact s (.getV x.toNat) = (s, .byte (s.reg x)) := by
  rw [transact, getV_toNat]
  rfl

/-- A register index of 16 or more halts a running engine, whether it is read or written. -/
theorem transact_register_outOfBounds {s : State} (hs : s.Running) (h : 16 ≤ k) (b : Byte) :
    transact s (.getV k) = (s.raise (.outOfBounds k), .failed (.outOfBounds k)) ∧
    transact s (.setV k b) = (s.raise (.outOfBounds k), .failed (.outOfBounds k)) ∧
    transact s (.addToGeneral k b) = (s.raise (.outOfBounds k), .failed (.outOfBounds k)) := by
  refine ⟨?_, replyState_quietly_of_error hs (setV_of_le s h b),
    replyState_quietly_of_error hs (addV_of_le s h b)⟩
  rw [transact, getV_of_le s h]
  rfl

end

section

variable {s t : State} {w : Word}

theorem transact_pop_of_ok (hs : s.Running) (h : s.pop = .ok (w, t)) : transact s .pop = (t, .word w) := by
  rw [transact, h]
  exact State.replyState_of_ok hs _

theorem transact_pop_of_empty (hs : s.Running) (h : s.sp = 0) :
    transact s .pop = (s.raise .stackUnderflow, .failed .stackUnderflow) := by
  rw [transact, s.pop_of_empty h]
  exact State.replyState_of_error hs _

end

/-- Settles O55: the accessors answer without looking at FAULT; each mutator of a running engine is a write
of its register alone, or it raises. -/
theorem hostRegisterTransactions : Obligations.HostRegisterTransactions := by
  refine ⟨fun s => ⟨transact_getV s, rfl, rfl, rfl, rfl⟩, fun s k b w hs => ?_⟩
  have hdone (tr : State × Reply) : s.replyState (.ok tr) = tr := State.replyState_of_ok hs tr
  refine ⟨fun hk => ⟨_, HaltedBy.raise hs _, transact_register_outOfBounds hs hk b⟩,
    ?register, ⟨_, hdone _, rfl, SameBut.index s w⟩, ⟨_, hdone _, rfl, SameBut.dt s b⟩,
    ⟨_, hdone _, rfl, SameBut.st s b⟩, ⟨_, hdone _, rfl, SameBut.pc s w⟩,
    ⟨_, hdone _, BitVec.toNat_add _ _, SameBut.advancePc s⟩,
    fun t h => replyState_quietly_of_ok hs h, fun a t h => transact_pop_of_ok hs h,
    fun hfull => ?full, fun hempty => ?empty⟩
  case register =>
    rintro x rfl
    exact ⟨⟨_, replyState_quietly_of_ok hs (setV_toNat s x b), s.reg_setReg_self x b,
      RegsBut.setReg x s b, SameBut.setReg s x b⟩,
      ⟨_, replyState_quietly_of_ok hs (addV_toNat s x b), addToGeneral_spec s x b⟩⟩
  case full =>
    have hsp : s.sp = 16 := Fin.ext hfull
    exact ⟨_, HaltedBy.raise hs _, replyState_quietly_of_error hs (s.push_of_full w hsp)⟩
  case empty =>
    have hsp : s.sp = 0 := Fin.ext hempty
    exact ⟨_, HaltedBy.raise hs _, transact_pop_of_empty hs hsp⟩

end Sys2Proof.Machine
end
